-- ==== Sys2Proof/Word.lean ====
section
/-! DEFINITION. The one data width of the machine: a byte, and the reduction of a number to it
(spec/00_scope.md R10, R11). -/

namespace Sys2Proof

/-- A register, a memory cell, an operand byte, FL: "unsigned 8-bit" (R9 `XLEN`, R10). -/
abbrev Byte := BitVec 8

/-- An interrupt line, 0..7 (R9 `NLINES`, 60_exceptions.md R195). -/
abbrev Line := Fin 8

/-- `wrap8(v)` is `v mod 256` (R11, 10_state.md R24). -/
abbrev wrap8 (v : Nat) : Byte := BitVec.ofNat 8 v

end Sys2Proof
end

