-- ==== Sys2Proof/Syntax.lean ====
section
/-! DEFINITION. The 24 instructions (spec/30_encoding.md R86; opcode_table.json, in its order). -/

namespace Sys2Proof

/-- One constructor per row of the opcode table. A register operand is the WHOLE operand byte: values 8..255
decode and raise `InvalidRegister` when the handler reaches them (R84, R91), so an operand is a byte here. -/
inductive Instr where
  | ldi (a i : Byte)
  | prn (a : Byte)
  | hlt
  | mul (a b : Byte)
  | add (a b : Byte)
  | push (a : Byte)
  | pop (a : Byte)
  | jmp (a : Byte)
  | st (a b : Byte)
  | pra (a : Byte)
  | ld (a b : Byte)
  | call (a : Byte)
  | ret
  | iret
  | cmp (a b : Byte)
  | jeq (a : Byte)
  | jne (a : Byte)
  | and (a b : Byte)
  | or (a b : Byte)
  | xor (a b : Byte)
  | not (a : Byte)
  | shl (a b : Byte)
  | shr (a b : Byte)
  | mod (a b : Byte)
deriving DecidableEq, Repr

end Sys2Proof
end

