-- ==== Sys2Proof/Decode.lean ====
section
/-! DEFINITION. The decoder, total on any bytes, and after it the encoder (spec/30_encoding.md R80..R93).
The decoder compares the whole opcode byte with the 24 values of R86 (R82, R88); no bit field selects an
instruction. -/

namespace Sys2Proof

/-- One row of the opcode table: the opcode byte, the mnemonic, and the instruction it gives with the operand
bytes `a` and `b` (an operand the format lacks is not used). -/
structure OpcodeRow where
  opcode : Byte
  mnemonic : String
  build : Byte → Byte → Instr

/-- R86, in the table's order. -/
def opcodeTable : List OpcodeRow :=
  [⟨0x82, "LDI", fun a i => .ldi a i⟩,
   ⟨0x47, "PRN", fun a _ => .prn a⟩,
   ⟨0x01, "HLT", fun _ _ => .hlt⟩,
   ⟨0xA2, "MUL", fun a b => .mul a b⟩,
   ⟨0xA0, "ADD", fun a b => .add a b⟩,
   ⟨0x45, "PUSH", fun a _ => .push a⟩,
   ⟨0x46, "POP", fun a _ => .pop a⟩,
   ⟨0x54, "JMP", fun a _ => .jmp a⟩,
   ⟨0x84, "ST", fun a b => .st a b⟩,
   ⟨0x48, "PRA", fun a _ => .pra a⟩,
   ⟨0x83, "LD", fun a b => .ld a b⟩,
   ⟨0x50, "CALL", fun a _ => .call a⟩] ++
  [⟨0x11, "RET", fun _ _ => .ret⟩,
   ⟨0x13, "IRET", fun _ _ => .iret⟩,
   ⟨0xA7, "CMP", fun a b => .cmp a b⟩,
   ⟨0x55, "JEQ", fun a _ => .jeq a⟩,
   ⟨0x56, "JNE", fun a _ => .jne a⟩,
   ⟨0xA8, "AND", fun a b => .and a b⟩,
   ⟨0xAA, "OR", fun a b => .or a b⟩,
   ⟨0xAB, "XOR", fun a b => .xor a b⟩,
   ⟨0x69, "NOT", fun a _ => .not a⟩,
   ⟨0xAC, "SHL", fun a b => .shl a b⟩,
   ⟨0xAD, "SHR", fun a b => .shr a b⟩,
   ⟨0xA4, "MOD", fun a b => .mod a b⟩]

/-- "find the row whose opcode equals `IR` (all eight bits)" (R86). -/
def findRow (ir : Byte) : Option OpcodeRow := opcodeTable.find? fun r => r.opcode == ir

/-- `nops = IR[7:6]`, the operand count (R81; 90_conflicts.md C1). -/
def operandCount (ir : Byte) : Nat := ir.toNat / 64

/-- `IR[5]`, set for the ALU operations (R82: the position is general knowledge, checked against the table in
R87). PRESUMED, log 14: no decoding depends on it. -/
def isAluOpcode (ir : Byte) : Bool := ir.getLsbD 5

/-- `IR[4]`, set for the instructions that set `pc` directly (R82, R87). PRESUMED, log 14. -/
def setsPcOpcode (ir : Byte) : Bool := ir.getLsbD 4

/-- `IR[3:0]`, the identifier (R82, R87). PRESUMED, log 14. -/
def opcodeIdentifier (ir : Byte) : Nat := ir.toNat % 16

/-- Why bytes are not an instruction. -/
inductive DecodeError where
  /-- There is no opcode byte. -/
  | noOpcode
  /-- The opcode byte is not one of the 24 (R88). -/
  | illegalOpcode (ir : Byte)
  /-- The operand byte at this offset from the opcode (1 or 2) is missing. -/
  | missingOperand (offset : Nat)
deriving DecidableEq, Repr

/-- Reads one instruction from the front of the bytes and gives what follows it. The legality of the opcode is
settled before any operand byte is looked at (40_fetch_and_sequence.md R107, R108). -/
def decode : List Byte → Except DecodeError (Instr × List Byte)
  | [] => .error .noOpcode
  | ir :: rest =>
    match findRow ir with
    | none => .error (.illegalOpcode ir)
    | some row =>
      match operandCount ir, rest with
      | 0, _ => .ok (row.build 0 0, rest)
      | 1, a :: more => .ok (row.build a 0, more)
      | 1, [] => .error (.missingOperand 1)
      | _ + 2, a :: b :: more => .ok (row.build a b, more)
      | _ + 2, [_] => .error (.missingOperand 2)
      | _ + 2, [] => .error (.missingOperand 1)

/-- The three bytes of an opcode-table word: the first byte is bits 7..0, the second bits 15..8, the third
bits 23..16, and every bit at or above `nbits` is 0 (R56: instruction bytes stand in ascending address order). -/
def tableBytes (nbits w : Nat) : List Byte :=
  let v := w % 2 ^ nbits
  [BitVec.ofNat 8 v, BitVec.ofNat 8 (v / 256), BitVec.ofNat 8 (v / 65536)]

/-- The instruction the decoder reads from an opcode-table word. -/
def decodeTableWord (nbits w : Nat) : Option Instr :=
  match decode (tableBytes nbits w) with
  | .ok (i, _) => some i
  | .error _ => none

/-- The opcode byte of an instruction (R86). -/
def Instr.opcode : Instr → Byte
  | .ldi _ _ => 0x82
  | .prn _ => 0x47
  | .hlt => 0x01
  | .mul _ _ => 0xA2
  | .add _ _ => 0xA0
  | .push _ => 0x45
  | .pop _ => 0x46
  | .jmp _ => 0x54
  | .st _ _ => 0x84
  | .pra _ => 0x48
  | .ld _ _ => 0x83
  | .call _ => 0x50
  | .ret => 0x11
  | .iret => 0x13
  | .cmp _ _ => 0xA7
  | .jeq _ => 0x55
  | .jne _ => 0x56
  | .and _ _ => 0xA8
  | .or _ _ => 0xAA
  | .xor _ _ => 0xAB
  | .not _ => 0x69
  | .shl _ _ => 0xAC
  | .shr _ _ => 0xAD
  | .mod _ _ => 0xA4

/-- The operand bytes, in address order (R83). -/
def Instr.operandBytes : Instr → List Byte
  | .ldi a i => [a, i]
  | .prn a => [a]
  | .hlt => []
  | .mul a b => [a, b]
  | .add a b => [a, b]
  | .push a => [a]
  | .pop a => [a]
  | .jmp a => [a]
  | .st a b => [a, b]
  | .pra a => [a]
  | .ld a b => [a, b]
  | .call a => [a]
  | .ret => []
  | .iret => []
  | .cmp a b => [a, b]
  | .jeq a => [a]
  | .jne a => [a]
  | .and a b => [a, b]
  | .or a b => [a, b]
  | .xor a b => [a, b]
  | .not a => [a]
  | .shl a b => [a, b]
  | .shr a b => [a, b]
  | .mod a b => [a, b]

/-- The bytes of an instruction: the opcode, then its operand bytes (R80). -/
def encode (i : Instr) : List Byte := i.opcode :: i.operandBytes

/-- `len`, the number of bytes of an instruction, 1 to 3 (R80, R81). -/
def Instr.length (i : Instr) : Nat := (encode i).length

end Sys2Proof
end

