-- ==== Sys2Proof/Config.lean ====
section
/-! DEFINITION. The three parameters the spec leaves to the model (spec/00_scope.md R9;
92_eei_decisions.md D5, D6). The spec leaves no result open (93_implementation_defined.md, end of section 1),
so there is no free value and no opaque constant here. -/

namespace Sys2Proof

/-- The parameters of R9. A value of this type stands in the machine's state and nothing changes it, so a
claim about every state is a claim about every setting of the parameters (DESIGN CHOICE, log 6). -/
structure Config where
  /-- `TIMER_LINE`, in 0..7. -/
  timerLine : Line
  /-- `INPUT_LINE`, in 0..7, different from `TIMER_LINE`. -/
  inputLine : Line
  /-- `VT_PROTECT`: a store or push into 248..255 faults (20_memory.md R58). -/
  vtProtect : Bool
deriving DecidableEq, Repr

/-- The defaults of R9: timer on line 0, input on line 1, the vector table protected. -/
def Config.default : Config := { timerLine := 0, inputLine := 1, vtProtect := true }

/-- "the two line numbers must differ and lie in 0..7" (R9). -/
abbrev Config.Valid (c : Config) : Prop := c.timerLine ≠ c.inputLine

end Sys2Proof
end

