-- ==== Sys2Proof/Machine/State.lean ====
section
/-! DEFINITION. Everything the spec gives the machine, as plain data (spec/10_state.md), and its value right
after reset (R43). -/

namespace Sys2Proof.Machine

/-- The seven fatal faults with the `info` each records (60_exceptions.md R183). A handler or the loop RAISES
one; the iteration is then undone and the run status becomes `faulted` with it (R12, R112, R182), which is a
next state. As an OUTCOME of a step it stands only for a machine that already stopped with it: no iteration
runs in a faulted machine (10_state.md R35), which is safe. -/
inductive Fault where
  /-- F1. Raised by the opcode fetch, an operand fetch, a write (ST, a push) and the saving of `pc`; `addr` is
  the address, or the `pc` that no cell can hold. Safe: the spec states the fault. -/
  | addressingFault (addr : Nat)
  /-- F2. Raised by every instruction with a register operand, for an operand byte of 8 or more. Safe. -/
  | invalidRegister (index : Byte)
  /-- F3. Raised by the decode of a byte that is not an opcode; `pc` is its address. Safe. -/
  | illegalInstruction (pc : Nat)
  /-- F4. Raised by MOD with a zero divisor; `pc` of the MOD. Safe. -/
  | divisionByZero (pc : Nat)
  /-- F5. Raised by a pop (POP, RET, IRET) at SP 244. Safe. -/
  | stackUnderflow (sp : Byte)
  /-- F6. Raised by the overflow check before a fetch; SP. Safe. -/
  | stackOverflow (sp : Byte)
  /-- F7. Raised by the load of more than 256 bytes; the byte count. Safe. -/
  | programTooLarge (count : Nat)
deriving DecidableEq, Repr

/-- Why an instruction has no meaning. -/
inductive Refusal where
  /-- Raised by an arm of `exec` without a meaning: there is none in this model. Safe. -/
  | notModelled (mnemonic : String)
deriving DecidableEq, Repr

/-- The run status (10_state.md R35). `halted` of the source is "the status is `halted`". -/
inductive RunStatus where
  | running
  | halted
  | faulted (f : Fault)
  | stopped
deriving DecidableEq, Repr

/-- What PRN and PRA emit (46_halt_and_output.md R171, R172). -/
inductive OutEvent where
  /-- `PrintNumber(a, v)`: the register index and its value. -/
  | printNumber (index value : Byte)
  /-- `PrintChar(v)`: the byte in the register, not 0. -/
  | printChar (value : Byte)
deriving DecidableEq, Repr

/-- An outside event (60_exceptions.md R197, R198): the timer, or the input with a byte or with none. -/
inductive Event where
  | timer
  | input (key : Option Byte)
deriving DecidableEq, Repr

/-- What a step of the whole machine can be (40_fetch_and_sequence.md R114). -/
inductive StepKind where
  | iterate
  | deliver (e : Event)
  | stop
deriving DecidableEq, Repr

/-- Where a handler leaves the program counter (40_fetch_and_sequence.md R109). -/
inductive ControlAction where
  | advance (len : Nat)
  | jumpTo (target : Byte)
  | halt
deriving DecidableEq, Repr

/-- The 256 cells: the cells that differ from what an unlisted address reads as, at rising addresses. -/
abbrev Memory := List Host.Cell

end Sys2Proof.Machine

namespace Sys2Proof.Machine

/-- The state of the core (10_state.md R20..R43) and of its interface (R38, R102). -/
structure State where
  /-- The parameters of 00_scope.md R9; nothing changes them (log 6). -/
  cfg : Config
  /-- R0..R7; R5 is IM, R6 is IS, R7 is SP (R20, R21). -/
  regs : Vector Byte 8
  /-- The program counter, which never wraps (R25). -/
  pc : Nat
  /-- The flags byte (R28). -/
  fl : Byte
  /-- The memory (R41). -/
  mem : Memory
  /-- Interrupts enabled (R36). -/
  ie : Bool
  /-- The run status (R35). -/
  status : RunStatus
  /-- `prog_top`: the highest address the loader wrote (R37). -/
  progTop : Option Byte
  /-- A timer firing waits for delivery (R38). -/
  timerFired : Bool
  /-- An input waits for delivery: the byte or none that the source gave last (R38). -/
  inputFired : Option (Option Byte)
  /-- The host asked for a stop (40_fetch_and_sequence.md R102). -/
  stopRequested : Bool
  /-- The console output stream, oldest first (R39). -/
  out : List OutEvent
deriving DecidableEq, Repr

/-- R43 with the parameters given. R0..R6 and FL are 0 by the spec's decision D3 (log 2), SP is 244 from reset
by D4 (log 3), no stop is requested (log 10). -/
def State.resetWith (c : Config) : State where
  cfg := c
  regs := #v[0, 0, 0, 0, 0, 0, 0, 244]
  pc := 0
  fl := 0
  mem := []
  ie := true
  status := .running
  progTop := none
  timerFired := false
  inputFired := none
  stopRequested := false
  out := []

/-- The machine right after reset (R43), with the default parameters of 00_scope.md R9. -/
def State.reset : State := State.resetWith Config.default

end Sys2Proof.Machine
end

