-- ==== Sys2Proof/Machine/Flags.lean ====
section
/-! DEFINITION. The flags byte FL: its bits, what the compare makes of it, what the branches read
(spec/10_state.md R28..R31, 41_arithmetic.md R124, 44_branch.md R150). -/

namespace Sys2Proof.Machine

/-- `FL.E`, bit 0. -/
def flEqual (fl : Byte) : Bool := fl.getLsbD 0

/-- `FL.G`, bit 1. No instruction reads it (10_state.md R30). -/
def flGreater (fl : Byte) : Bool := fl.getLsbD 1

/-- `FL.L`, bit 2. No instruction reads it (10_state.md R30). -/
def flLess (fl : Byte) : Bool := fl.getLsbD 2

/-- The compare ORs one bit in and clears none; the comparison is of unsigned bytes, `va` on the left
(41_arithmetic.md R124). -/
def compareFlags (fl va vb : Byte) : Byte :=
  if va = vb then fl ||| 0b00000001
  else if vb.toNat < va.toNat then fl ||| 0b00000010
  else fl ||| 0b00000100

end Sys2Proof.Machine
end

