-- ==== Sys2Proof/WellFormed.lean ====
section
/-! DEFINITION. Which instructions name only registers that exist (spec/30_encoding.md R84, R91;
opcode_table.json "valid": 0..7). An instruction that is not well formed still has an encoding and still runs:
it raises `InvalidRegister` (60_exceptions.md R185). -/

namespace Sys2Proof

/-- The operand bytes used as register indices, in operand order. LDI's second operand byte is an immediate
and is never checked (R85, R91). -/
def Instr.registerOperands : Instr → List Byte
  | .ldi a _ => [a]
  | .prn a => [a]
  | .hlt => []
  | .mul a b => [a, b]
  | .add a b => [a, b]
  | .push a => [a]
  | .pop a => [a]
  | .jmp a => [a]
  | .st a b => [a, b]
  | .pra a => [a]
  | .ld a b => [a, b]
  | .call a => [a]
  | .ret => []
  | .iret => []
  | .cmp a b => [a, b]
  | .jeq a => [a]
  | .jne a => [a]
  | .and a b => [a, b]
  | .or a b => [a, b]
  | .xor a b => [a, b]
  | .not a => [a]
  | .shl a b => [a, b]
  | .shr a b => [a, b]
  | .mod a b => [a, b]

/-- A register index names a register when it is below 8 (10_state.md R23). -/
def validRegister (r : Byte) : Bool := decide (r.toNat < 8)

/-- The operand byte that names a register: its number (R84). -/
def regIndex (r : Fin 8) : Byte := BitVec.ofNat 8 r.val

/-- Every register operand names one of R0..R7. -/
def Instr.wellFormed (i : Instr) : Bool := i.registerOperands.all validRegister

/-- The register operand that is reported when one does not exist: the first one, in operand order
(60_exceptions.md R192 item 6). -/
def Instr.firstInvalid (i : Instr) : Option Byte := i.registerOperands.find? fun r => !validRegister r

end Sys2Proof
end

