-- ==== Sys2Proof/Machine/Ops.lean ====
section
/-! DEFINITION. The named operations over memory, registers and the stack (spec/00_scope.md R12;
10_state.md R23, R24; 20_memory.md R52..R65), the raising of a fault (R12, R112), the taking of an interrupt
and the return from it (60_exceptions.md R202; 45_call_return.md R163), the control actions (40 R109), and
what the outside may do: deliver an event, stop, load (60 R199, 40 R102, 70 R226). -/

namespace Sys2Proof.Machine

/-! ### The constants of 00_scope.md R9 -/

/-- `MEM_SIZE`. -/
abbrev memSize : Nat := 256

/-- `VT_BASE`: the address of the vector of line 0. -/
abbrev vtBase : Nat := 248

/-- `SP_INIT`: the underflow limit of the stack. -/
abbrev spInit : Byte := 244

/-- `KEY_ADDR`: the cell that receives the input byte. -/
abbrev keyAddr : Nat := 244

/-! ### Memory as data -/

/-- What an unlisted address reads as: memory is zero-filled at reset (20_memory.md R51, 10_state.md R43). -/
abbrev Memory.unlisted : Byte := 0

/-- The byte held for an address. -/
def Memory.read : Memory → Nat → Byte
  | [], _ => Memory.unlisted
  | (b, v) :: rest, a => if a = b then v else Memory.read rest a

/-- One cell changed, the canonical form kept: the list stays sorted, and writing what an unlisted address
reads as removes the entry. -/
def Memory.write : Memory → Nat → Byte → Memory
  | [], a, v => if v = Memory.unlisted then [] else [(a, v)]
  | (b, w) :: rest, a, v =>
    if a = b then (if v = Memory.unlisted then rest else (a, v) :: rest)
    else if a < b then (if v = Memory.unlisted then (b, w) :: rest else (a, v) :: (b, w) :: rest)
    else (b, w) :: Memory.write rest a v

/-- The canonical form: addresses in 0..255, strictly rising, and no entry equal to what an unlisted address
reads as. -/
abbrev Memory.wf (m : Memory) : Prop :=
  (m.map Prod.fst).Pairwise (· < ·) ∧ ∀ c ∈ m, c.1 < memSize ∧ c.2 ≠ Memory.unlisted

/-- Consecutive bytes put into cells from an address upward, past every protection: the loader's writes
(70_reset_and_hazards.md R228). Bytes that would fall beyond 255 name no cell and are dropped; `load` never
has any. -/
def Memory.store : Memory → Nat → List Byte → Memory
  | m, _, [] => m
  | m, a, b :: bs => Memory.store (if a < memSize then Memory.write m a b else m) (a + 1) bs

/-- The byte in the cell at an address, as an observer sees it. -/
def State.byteAt (s : State) (addr : Nat) : Byte := Memory.read s.mem addr

/-! ### Registers -/

/-- The value of a register. No register is hardwired (10_state.md R20). -/
def State.reg (s : State) (r : Fin 8) : Byte := s.regs[r]

/-- One register replaced. -/
def State.setReg (s : State) (r : Fin 8) (v : Byte) : State := { s with regs := s.regs.set r v }

/-- SP is R7 (10_state.md R32). -/
abbrev State.sp (s : State) : Byte := s.reg 7

/-- IM is R5 (10_state.md R33). -/
abbrev State.intMask (s : State) : Byte := s.reg 5

/-- IS is R6 (10_state.md R34). -/
abbrev State.intStatus (s : State) : Byte := s.reg 6

/-- A register named by an operand byte: the whole byte is the index, and 8 or more is `InvalidRegister`
(10_state.md R23, D21). -/
def checkReg (r : Byte) : Except Fault (Fin 8) :=
  if h : r.toNat < 8 then .ok ⟨r.toNat, h⟩ else .error (.invalidRegister r)

/-- `x[i]` (00_scope.md R12). -/
def readReg (s : State) (r : Byte) : Except Fault Byte := do
  let i ← checkReg r
  return s.reg i

/-- `x[i] <- v` (00_scope.md R12). -/
def writeReg (s : State) (r : Byte) (v : Byte) : Except Fault State := do
  let i ← checkReg r
  return s.setReg i v

/-! ### Memory accesses -/

/-- `MemRead(addr, 1)` (20_memory.md R52). -/
def memRead (s : State) (addr : Nat) : Except Fault Byte :=
  if memSize ≤ addr then .error (.addressingFault addr) else .ok (s.byteAt addr)

/-- An address that a write of the running machine may not touch (20_memory.md R53, R58). -/
def writeForbidden (s : State) (addr : Nat) : Bool :=
  decide (memSize ≤ addr) || (s.cfg.vtProtect && decide (vtBase ≤ addr))

/-- `MemWrite(addr, 1, v)` (20_memory.md R53). -/
def memWrite (s : State) (addr : Nat) (v : Byte) : Except Fault State :=
  if writeForbidden s addr then .error (.addressingFault addr)
  else .ok { s with mem := Memory.write s.mem addr v }

/-! ### The stack -/

/-- `Push(v)`: "decrement SP, write byte at new SP" (20_memory.md R62). -/
def push (s : State) (v : Byte) : Except Fault State :=
  let sp := s.sp - 1
  memWrite (s.setReg 7 sp) sp.toNat v

/-- `Pop()`: StackUnderflow at SP 244, else "read byte at SP, increment SP" (20_memory.md R63). -/
def pop (s : State) : Except Fault (Byte × State) :=
  if s.sp = spInit then .error (.stackUnderflow s.sp)
  else do
    let v ← memRead s s.sp.toNat
    return (v, s.setReg 7 (s.sp + 1))

/-- `PushPC(t)`: a program counter of 256 or more fits no cell and faults (20_memory.md R64, D2). -/
def pushPc (s : State) (t : Nat) : Except Fault State :=
  if memSize ≤ t then .error (.addressingFault t) else push s (BitVec.ofNat 8 t)

/-! ### Raising a fault, ending an iteration -/

/-- `raise`: "no state change of that iteration is kept, the run status becomes `Faulted(<Fault>, info)`"
(00_scope.md R12, 40_fetch_and_sequence.md R112). `s` is the state the iteration began with. -/
def raise (s : State) (f : Fault) : State := { s with status := .faulted f }

/-- The end of an iteration that began in `s`: what it made of the state, or the fault it raised. -/
def settle (s : State) : Except Fault State → Host.Outcome State Fault Refusal
  | .ok t => .next t
  | .error f => .next (raise s f)

/-- The effect of a control action on `pc` and the status (40_fetch_and_sequence.md R109). The addition is on
unbounded numbers (R110). -/
def applyControl (s : State) : ControlAction → State
  | .advance len => { s with pc := s.pc + len }
  | .jumpTo t => { s with pc := t.toNat }
  | .halt => { s with pc := s.pc + 1, status := .halted }

/-- What a handler gives: the state with its effects and its control action, or a fault (R109). -/
abbrev HandlerResult := Except Fault (State × ControlAction)

/-- A handler's result made the end of the iteration that began in `s`. -/
def complete (s : State) (r : HandlerResult) : Host.Outcome State Fault Refusal :=
  settle s (r.map fun e => applyControl e.1 e.2)

/-! ### Taking an interrupt, returning from it -/

/-- The bit of a line in IM and IS, as a byte: `2^n`. -/
def lineBit (n : Line) : Byte := BitVec.ofNat 8 (2 ^ n.val)

/-- "pick the lowest-numbered set bit" (60_exceptions.md R193, R201). -/
def lowestLine (pending : Byte) : Option Line :=
  ([0, 1, 2, 3, 4, 5, 6, 7] : List Line).find? fun n => pending.getLsbD n

/-- Several bytes pushed, the first one first. -/
def pushAll : State → List Byte → Except Fault State
  | s, [] => .ok s
  | s, v :: vs => do
    let t ← push s v
    pushAll t vs

/-- `save_interrupt_frame()`: pc, FL, R0..R5, in that order (20_memory.md R65). -/
def saveFrame (s : State) : Except Fault State := do
  let t ← pushPc s s.pc
  pushAll t [s.fl, s.reg 0, s.reg 1, s.reg 2, s.reg 3, s.reg 4, s.reg 5]

/-- `InterruptEntry()` on line `n` (60_exceptions.md R202). -/
def interruptEntry (s : State) (n : Line) : Except Fault State := do
  let t ← saveFrame ({ s with ie := false }.setReg 6 (s.intStatus &&& (255 - lineBit n)))
  let vector ← memRead t (vtBase + n.val)
  return { t with pc := vector.toNat }

/-- A pop into a register the hardware names itself. -/
def popInto (s : State) (r : Fin 8) : Except Fault State := do
  let (v, t) ← pop s
  return t.setReg r v

/-- Pops into several registers, in order. -/
def popRegs : State → List (Fin 8) → Except Fault State
  | s, [] => .ok s
  | s, r :: rs => do
    let t ← popInto s r
    popRegs t rs

/-- A pop into FL, all eight bits. -/
def popFlags (s : State) : Except Fault State := do
  let (v, t) ← pop s
  return { t with fl := v }

/-- `restore_interrupt_frame()`: R5, R4, .., R0, FL and pc popped, interrupts enabled
(45_call_return.md R163). The popped pc is given beside the state. -/
def restoreFrame (s : State) : Except Fault (Byte × State) := do
  let t ← popRegs s [5, 4, 3, 2, 1, 0]
  let u ← popFlags t
  let (pc, w) ← pop u
  return (pc, { w with ie := true })

/-! ### Console output -/

/-- `Out(e)` (46_halt_and_output.md R173). -/
def emit (s : State) (e : OutEvent) : State := { s with out := s.out ++ [e] }

/-- The text of an event: `Register_<a> has value of <v>.` in decimal for a number (R171, D16), the character
itself for a character below 128; for 128..255 what the console shows is outside the core (93 U7). -/
def OutEvent.render : OutEvent → Option String
  | .printNumber a v => some ("Register_" ++ toString a.toNat ++ " has value of " ++ toString v.toNat ++ ".")
  | .printChar v => if v.toNat < 128 then some (String.singleton (Char.ofNat v.toNat)) else none

/-! ### The outside: events, the stop, the load -/

/-- `IS <- IS | 2^n` (60_exceptions.md R199). -/
def raiseLine (s : State) (n : Line) : State := s.setReg 6 (s.intStatus ||| lineBit n)

/-- `Deliver(event)`, only while the status is Running (60_exceptions.md R199; 95_test_vectors.md V7). The
deposit of the input byte is a plain cell write that cannot fault (20_memory.md R60). -/
def deliver (e : Event) (s : State) : State :=
  if s.status = .running then
    match e with
    | .timer => raiseLine s s.cfg.timerLine
    | .input key =>
      raiseLine { s with mem := Memory.write s.mem keyAddr (key.getD 0) } s.cfg.inputLine
  else s

/-- The outside stop: "the status becomes `Stopped` and nothing else changes" (40_fetch_and_sequence.md
R102). -/
def stop (s : State) : State := if s.status = .running then { s with status := .stopped } else s

/-- The timer source fires; the firing is held, a second one adds nothing (10_state.md R38). -/
def fireTimer (s : State) : State := { s with timerFired := true }

/-- The input source fires; the firing is held, a later byte replaces an earlier one (10_state.md R38). -/
def fireInput (key : Option Byte) (s : State) : State := { s with inputFired := some key }

/-- The host asks for a stop (40_fetch_and_sequence.md R102). -/
def requestStop (s : State) : State := { s with stopRequested := true }

/-- `Load(bytes)` (70_reset_and_hazards.md R226..R228): ProgramTooLarge before any cell is written, else the
bytes from address 0 and `prog_top` their last address. -/
def load (bytes : List Byte) (s : State) : State :=
  if memSize < bytes.length then raise s (.programTooLarge bytes.length)
  else
    { s with
      mem := Memory.store s.mem 0 bytes
      progTop := if bytes.isEmpty then none else some (BitVec.ofNat 8 (bytes.length - 1)) }

/-- Reset, then the one load (70_reset_and_hazards.md R225). -/
def boot (c : Config) (bytes : List Byte) : State := load bytes (State.resetWith c)

end Sys2Proof.Machine
end

