-- ==== Sys2Proof/Machine/Operands.lean ====
section
/-! DEFINITION. The operand forms (spec/30_encoding.md R84, R85; 43_memory_access.md R140) and the ALU, with the
three operations that no opcode reaches (41_arithmetic.md R120..R128; 42_bitwise.md R130..R136). -/

namespace Sys2Proof.Machine

/-- Where the second operand of an ALU operation comes from (R120: "src_reg_or_immediate"; `not`, `increment`
and `decrement` have none). -/
inductive AluSource where
  | register (b : Byte)
  | immediate (v : Byte)
  | unary
deriving DecidableEq, Repr

/-- The ALU's operations (R120). `addImmediate`, `increment` and `decrement` have no opcode (R125..R127). -/
inductive AluOp where
  | add
  | multiply
  | modulo
  | and
  | or
  | xor
  | not
  | shiftLeft
  | shiftRight
  | addImmediate
  | increment
  | decrement
  | compare
deriving DecidableEq, Repr

/-- The value of a second operand. -/
def readSource (s : State) : AluSource → Except Fault Byte
  | .register b => readReg s b
  | .immediate v => .ok v
  | .unary => .ok 0

/-- Register-indirect: the effective address is the byte in the address register (43_memory_access.md R140). -/
def effectiveAddress (s : State) (r : Byte) : Except Fault Nat := do
  let v ← readReg s r
  return v.toNat

/-- `wrap8(va + vb)` (R121, R125). -/
def addBytes (va vb : Byte) : Byte := wrap8 (va.toNat + vb.toNat)

/-- `wrap8(va * vb)` (R122). -/
def mulBytes (va vb : Byte) : Byte := wrap8 (va.toNat * vb.toNat)

/-- `va mod vb`, for a divisor that is not 0 (R123). -/
def modBytes (va vb : Byte) : Byte := wrap8 (va.toNat % vb.toNat)

/-- `255 - va` (R134). -/
def notByte (va : Byte) : Byte := wrap8 (255 - va.toNat)

/-- `wrap8(va * 2^n)`, the count being the whole byte (R135, D9). -/
def shlBytes (va n : Byte) : Byte := wrap8 (va.toNat * 2 ^ n.toNat)

/-- `va div 2^n`, the count being the whole byte (R136, D9). -/
def shrBytes (va n : Byte) : Byte := wrap8 (va.toNat / 2 ^ n.toNat)

/-- "apply(op, dest_reg, src_reg_or_immediate)" (R120): both operands are read first, then the destination
register is written, or FL by the compare. -/
def aluApply (op : AluOp) (dest : Byte) (src : AluSource) (s : State) : Except Fault State := do
  let va ← readReg s dest
  let vb ← readSource s src
  match op with
  | .add => writeReg s dest (addBytes va vb)
  | .multiply => writeReg s dest (mulBytes va vb)
  | .modulo => if vb = 0 then .error (.divisionByZero s.pc) else writeReg s dest (modBytes va vb)
  | .and => writeReg s dest (va &&& vb)
  | .or => writeReg s dest (va ||| vb)
  | .xor => writeReg s dest (va ^^^ vb)
  | .not => writeReg s dest (notByte va)
  | .shiftLeft => writeReg s dest (shlBytes va vb)
  | .shiftRight => writeReg s dest (shrBytes va vb)
  | .addImmediate => writeReg s dest (addBytes va vb)
  | .increment => writeReg s dest (wrap8 (va.toNat + 1))
  | .decrement => writeReg s dest (va - 1)
  | .compare => .ok { s with fl := compareFlags s.fl va vb }

/-- An ALU instruction: the operation, then an advance by its length (R120, R130). -/
def aluInstruction (op : AluOp) (dest : Byte) (src : AluSource) (len : Nat) (s : State) :
    Host.Outcome State Fault Refusal :=
  complete s do
    let t ← aluApply op dest src s
    return (t, .advance len)

end Sys2Proof.Machine
end

