-- ==== Sys2Proof/Machine/Arithmetic.lean ====
section
/-! DEFINITION. ADD, MUL, MOD, CMP (spec/41_arithmetic.md). -/

namespace Sys2Proof.Machine

/-- ADD (R121). -/
def execAdd (a b : Byte) (s : State) : Host.Outcome State Fault Refusal :=
  aluInstruction .add a (.register b) 3 s

/-- MUL (R122). -/
def execMul (a b : Byte) (s : State) : Host.Outcome State Fault Refusal :=
  aluInstruction .multiply a (.register b) 3 s

/-- MOD (R123). -/
def execMod (a b : Byte) (s : State) : Host.Outcome State Fault Refusal :=
  aluInstruction .modulo a (.register b) 3 s

/-- CMP (R124). -/
def execCmp (a b : Byte) (s : State) : Host.Outcome State Fault Refusal :=
  aluInstruction .compare a (.register b) 3 s

end Sys2Proof.Machine
end

