-- ==== Sys2Proof/Machine/Bitwise.lean ====
section
/-! DEFINITION. AND, OR, XOR, NOT, SHL, SHR (spec/42_bitwise.md). -/

namespace Sys2Proof.Machine

/-- AND (R131). -/
def execAnd (a b : Byte) (s : State) : Host.Outcome State Fault Refusal :=
  aluInstruction .and a (.register b) 3 s

/-- OR (R132). -/
def execOr (a b : Byte) (s : State) : Host.Outcome State Fault Refusal :=
  aluInstruction .or a (.register b) 3 s

/-- XOR (R133). -/
def execXor (a b : Byte) (s : State) : Host.Outcome State Fault Refusal :=
  aluInstruction .xor a (.register b) 3 s

/-- NOT (R134). -/
def execNot (a : Byte) (s : State) : Host.Outcome State Fault Refusal :=
  aluInstruction .not a .unary 2 s

/-- SHL (R135). -/
def execShl (a b : Byte) (s : State) : Host.Outcome State Fault Refusal :=
  aluInstruction .shiftLeft a (.register b) 3 s

/-- SHR (R136). -/
def execShr (a b : Byte) (s : State) : Host.Outcome State Fault Refusal :=
  aluInstruction .shiftRight a (.register b) 3 s

end Sys2Proof.Machine
end

