-- ==== Sys2Proof/Machine/Branch.lean ====
section
/-! DEFINITION. JMP, JEQ, JNE (spec/44_branch.md). -/

namespace Sys2Proof.Machine

/-- JMP (R151). -/
def execJmp (a : Byte) (s : State) : Host.Outcome State Fault Refusal :=
  complete s do
    let t ← readReg s a
    return (s, .jumpTo t)

/-- JEQ: the register is read, and so checked, whether or not the branch is taken (R150, R152). -/
def execJeq (a : Byte) (s : State) : Host.Outcome State Fault Refusal :=
  complete s do
    let t ← readReg s a
    return (s, if flEqual s.fl then .jumpTo t else .advance 2)

/-- JNE (R150, R153). -/
def execJne (a : Byte) (s : State) : Host.Outcome State Fault Refusal :=
  complete s do
    let t ← readReg s a
    return (s, if flEqual s.fl then .advance 2 else .jumpTo t)

end Sys2Proof.Machine
end

