-- ==== Sys2Proof/Machine/CallReturn.lean ====
section
/-! DEFINITION. CALL, RET, IRET (spec/45_call_return.md). -/

namespace Sys2Proof.Machine

/-- CALL: the target is read before the push (R161, D19). -/
def execCall (a : Byte) (s : State) : Host.Outcome State Fault Refusal :=
  complete s do
    let t ← readReg s a
    let u ← pushPc s (s.pc + 2)
    return (u, .jumpTo t)

/-- RET (R162). -/
def execRet (s : State) : Host.Outcome State Fault Refusal :=
  complete s do
    let (t, u) ← pop s
    return (u, .jumpTo t)

/-- IRET (R163). -/
def execIret (s : State) : Host.Outcome State Fault Refusal :=
  complete s do
    let (t, u) ← restoreFrame s
    return (u, .jumpTo t)

end Sys2Proof.Machine
end

