-- ==== Sys2Proof/Machine/HaltOutput.lean ====
section
/-! DEFINITION. HLT, PRN, PRA (spec/46_halt_and_output.md). -/

namespace Sys2Proof.Machine

/-- HLT (R170). -/
def execHlt (s : State) : Host.Outcome State Fault Refusal :=
  complete s (.ok (s, .halt))

/-- PRN (R171). -/
def execPrn (a : Byte) (s : State) : Host.Outcome State Fault Refusal :=
  complete s do
    let v ← readReg s a
    return (emit s (.printNumber a v), .advance 2)

/-- PRA: nothing is emitted for the value 0 (R172). -/
def execPra (a : Byte) (s : State) : Host.Outcome State Fault Refusal :=
  complete s do
    let v ← readReg s a
    return (if v = 0 then s else emit s (.printChar v), .advance 2)

end Sys2Proof.Machine
end

