-- ==== Sys2Proof/Machine/MemoryAccess.lean ====
section
/-! DEFINITION. LDI, LD, ST, PUSH, POP (spec/43_memory_access.md). -/

namespace Sys2Proof.Machine

/-- LDI (R141). -/
def execLdi (a i : Byte) (s : State) : Host.Outcome State Fault Refusal :=
  complete s do
    let t ← writeReg s a i
    return (t, .advance 3)

/-- LD: the destination index is checked first (R142; 90_conflicts.md C15). -/
def execLd (a b : Byte) (s : State) : Host.Outcome State Fault Refusal :=
  complete s do
    let _ ← checkReg a
    let addr ← effectiveAddress s b
    let v ← memRead s addr
    let t ← writeReg s a v
    return (t, .advance 3)

/-- ST: the address register is the FIRST operand (R143). -/
def execSt (a b : Byte) (s : State) : Host.Outcome State Fault Refusal :=
  complete s do
    let addr ← effectiveAddress s a
    let v ← readReg s b
    let t ← memWrite s addr v
    return (t, .advance 3)

/-- PUSH: the value is read before SP moves (R144, D19). -/
def execPush (a : Byte) (s : State) : Host.Outcome State Fault Refusal :=
  complete s do
    let v ← readReg s a
    let t ← push s v
    return (t, .advance 2)

/-- POP: the index is checked first, the register is written last (R145, D19; 90_conflicts.md C15). -/
def execPop (a : Byte) (s : State) : Host.Outcome State Fault Refusal :=
  complete s do
    let _ ← checkReg a
    let (v, t) ← pop s
    let u ← writeReg t a v
    return (u, .advance 2)

end Sys2Proof.Machine
end

