-- ==== Sys2Proof/Machine/Loop.lean ====
section
/-! DEFINITION. The execution loop: the interrupt check, the overflow check, the fetch, the dispatch
(spec/40_fetch_and_sequence.md R100..R110), and the three kinds of step of the whole machine (R114). -/

namespace Sys2Proof.Machine

/-- The line the interrupt check takes: the lowest set bit of `IM & IS`, while `ie` is true
(R104; 60_exceptions.md R193, R201). -/
def pendingLine (s : State) : Option Line :=
  if s.ie then lowestLine (s.intMask &&& s.intStatus) else none

/-- `prog_top is not none and SP <= prog_top` (R105; 20_memory.md R66). -/
def overflowed (s : State) : Bool :=
  match s.progTop with
  | none => false
  | some top => decide (s.sp.toNat ≤ top.toNat)

/-- The bytes the fetch unit can read from `pc` on: at most three, and none at 256 or beyond (R106, R108). -/
def codeBytes (s : State) : List Byte :=
  [0, 1, 2].filterMap fun k => (memRead s (s.pc + k)).toOption

/-- Steps (3) and (4): the opcode fetch, the legality of the opcode, the operand fetch (R106..R108). A byte that
cannot be read is an AddressingFault at its address. -/
def fetch (s : State) : Except Fault Instr :=
  match decode (codeBytes s) with
  | .ok (i, _) => .ok i
  | .error .noOpcode => .error (.addressingFault s.pc)
  | .error (.illegalOpcode _) => .error (.illegalInstruction s.pc)
  | .error (.missingOperand k) => .error (.addressingFault (s.pc + k))

/-- `Iterate()` (R101): an interrupt is taken, or the overflow check, fetch and dispatch are made. -/
def iterate (s : State) : Host.Outcome State Fault Refusal :=
  match pendingLine s with
  | some n => settle s (interruptEntry s n)
  | none =>
    if overflowed s then settle s (.error (.stackOverflow s.sp))
    else
      match fetch s with
      | .ok i => exec i s
      | .error f => settle s (.error f)

/-- One step of a given kind (R114). `Halted` and `Stopped` are terminal: nothing changes any more; a machine
that faulted has stopped with its fault (10_state.md R35; R113; log 7, log 8). -/
def transition (k : StepKind) (s : State) : Host.Outcome State Fault Refusal :=
  match s.status with
  | .running =>
    match k with
    | .iterate => iterate s
    | .deliver e => .next (deliver e s)
    | .stop => .next (stop s)
  | .halted => .next s
  | .stopped => .next s
  | .faulted f => .fault f

/-- The kind of the next step: a requested stop first, then the held timer firing, then the held input, and an
iteration when nothing is held (10_state.md R38; R102, R103; the order is a DESIGN CHOICE, log 9). -/
def nextKind (s : State) : StepKind :=
  if s.stopRequested then .stop
  else if s.timerFired then .deliver .timer
  else match s.inputFired with
    | some key => .deliver (.input key)
    | none => .iterate

/-- The state with the firing that a step delivers no longer held (10_state.md R38). -/
def release (k : StepKind) (s : State) : State :=
  match k with
  | .iterate => s
  | .deliver .timer => { s with timerFired := false }
  | .deliver (.input _) => { s with inputFired := none }
  | .stop => s

/-- One step of the machine on its own: the step that its state calls for. -/
def nextStep (s : State) : Host.Outcome State Fault Refusal :=
  match s.status with
  | .running => transition (nextKind s) (release (nextKind s) s)
  | .halted => .next s
  | .stopped => .next s
  | .faulted f => .fault f

/-- A run of the whole machine under an environment that chooses the kind of each step (R114). -/
def runKinds : List StepKind → State → Host.Outcome State Fault Refusal
  | [], s => .next s
  | k :: ks, s =>
    match transition k s with
    | .next t => runKinds ks t
    | .fault f => .fault f
    | .refused r => .refused r

/-- An opcode-table word stored where the next fetch reads (three bytes from `pc` on, past every protection, as
the loader stores; 70_reset_and_hazards.md R228). -/
def storeAtPc (s : State) (nbits w : Nat) : State :=
  { s with mem := Memory.store s.mem s.pc (tableBytes nbits w) }

end Sys2Proof.Machine
end

