-- ==== Sys2Proof/Machine/Step.lean ====
section
/-! DEFINITION. The step of the machine (spec/40_fetch_and_sequence.md R101, R114). -/

namespace Sys2Proof.Machine

/-- One step: the delivery of a held event, a requested stop, or one iteration of the loop. -/
def step (s : State) : Host.Outcome State Fault Refusal := nextStep s

/-- The instruction of an opcode-table word stored at `pc`; it stands for the loading of a program from outside
the machine (log 1). -/
def State.withFetchWord (s : State) (nbits w : Nat) : State := storeAtPc s nbits w

end Sys2Proof.Machine
end

