-- ==== Sys2Proof/Safety.lean ====
section
/-! DEFINITION. What counts as a sound state and as a safe run. -/

namespace Sys2Proof.Machine

/-- The `info` recorded with a fault is what spec/60_exceptions.md R183 says of the state it was raised in, which a
faulted machine still shows (R182). -/
def FaultRecord (s : State) : Fault → Prop
  | .addressingFault addr => memSize ≤ addr ∨ (s.cfg.vtProtect = true ∧ vtBase ≤ addr)
  | .invalidRegister r => 8 ≤ r.toNat
  | .illegalInstruction p => p = s.pc ∧ p < memSize ∧ findRow (s.byteAt p) = none
  | .divisionByZero p => p = s.pc
  | .stackUnderflow v => v = spInit
  | .stackOverflow v => v = s.sp ∧ overflowed s = true
  | .programTooLarge n => memSize < n

/-- The invariant of the machine: memory in its canonical form, `pc` at most one past the last cell, the two
source lines different, and a faulted status recording a fault that its state shows. -/
structure State.Inv (s : State) : Prop where
  memory : Memory.wf s.mem
  pc : s.pc ≤ memSize
  config : s.cfg.Valid
  faultRecord : ∀ f, s.status = .faulted f → FaultRecord s f

/-- The run did not fault. -/
def State.Safe (s : State) : Prop := ∀ f, s.status ≠ .faulted f

/-- Every state of a run under an environment's choices is safe. -/
def SafeRun (ks : List StepKind) (s : State) : Prop :=
  ∀ n t, runKinds (ks.take n) s = .next t → t.Safe

end Sys2Proof.Machine
end

