-- ==== Sys2Proof/Certificates/Slice0/Obligations.lean ====
section
/-! DEFINITION. The statements for the provers. A statement about one instruction says what it does on every operand
byte: the faults of the register operands that do not exist, and for the registers that do, the next state and its
frame. Rule numbers are those of spec/. -/

namespace Sys2Proof.Claims

open Sys2Proof Sys2Proof.Machine

/-! ### The words the statements are made of -/

/-- The iteration is undone and the status records the fault: nothing else of the state differs. -/
def StopsWith (i : Instr) (s : State) (f : Fault) : Prop := exec i s = .next { s with status := .faulted f }

/-- An instruction with one register operand stops with InvalidRegister when that register does not exist. -/
def ChecksOne (i : Instr) (a : Byte) (s : State) : Prop := 8 ≤ a.toNat → StopsWith i s (.invalidRegister a)

/-- An instruction with two register operands checks the first, then the second. -/
def ChecksTwo (i : Instr) (a b : Byte) (s : State) : Prop :=
  (8 ≤ a.toNat → StopsWith i s (.invalidRegister a)) ∧
    (a.toNat < 8 → 8 ≤ b.toNat → StopsWith i s (.invalidRegister b))

/-- The parameters, `prog_top`, and what the interface holds are unchanged. -/
structure HostKept (s t : State) : Prop where
  cfg : t.cfg = s.cfg
  progTop : t.progTop = s.progTop
  timerFired : t.timerFired = s.timerFired
  inputFired : t.inputFired = s.inputFired
  stopRequested : t.stopRequested = s.stopRequested

/-- Every register but those listed, and every cell but those listed, is unchanged; so is what the host sees of the
configuration. -/
structure Frame (regs : List (Fin 8)) (cells : List Nat) (s t : State) : Prop where
  registers : ∀ r, r ∉ regs → t.reg r = s.reg r
  memory : ∀ addr, addr ∉ cells → t.byteAt addr = s.byteAt addr
  host : HostKept s t

/-- FL, `ie`, the run status and the output are unchanged. -/
structure ControlKept (s t : State) : Prop where
  fl : t.fl = s.fl
  ie : t.ie = s.ie
  status : t.status = s.status
  out : t.out = s.out

/-- `i` completes in `t`: register `r` may differ, `pc` has advanced by `len`, and nothing else differs. -/
structure WritesRegister (i : Instr) (s t : State) (r : Fin 8) (len : Nat) : Prop where
  completes : exec i s = .next t
  pc : t.pc = s.pc + len
  frame : Frame [r] [] s t
  control : ControlKept s t

/-- `i` completes in `t`, having changed nothing but `pc`. -/
structure OnlySetsPc (i : Instr) (s t : State) (pc : Nat) : Prop where
  completes : exec i s = .next t
  pc : t.pc = pc
  frame : Frame [] [] s t
  control : ControlKept s t

/-- A write of the running machine may touch the cell (R53, R58). -/
def MayWrite (s : State) (addr : Nat) : Prop := s.cfg.vtProtect = true → addr < 248

/-- A write of the running machine to the cell faults (R58). -/
def WriteFaults (s : State) (addr : Nat) : Prop := s.cfg.vtProtect = true ∧ 248 ≤ addr

/-- Running, and nothing is held at the interface. -/
structure Idle (s : State) : Prop where
  running : s.status = .running
  noStop : s.stopRequested = false
  noTimer : s.timerFired = false
  noInput : s.inputFired = none

/-- Line `n` is pending and unmasked. -/
def Eligible (s : State) (n : Fin 8) : Prop := (s.reg 5).getLsbD n = true ∧ (s.reg 6).getLsbD n = true

/-- The interrupt check takes nothing (R104). -/
def NoInterrupt (s : State) : Prop := s.ie = false ∨ ∀ n, ¬ Eligible s n

/-- The overflow check passes (R105). -/
def StackClear (s : State) : Prop := ∀ top, s.progTop = some top → top.toNat < (s.reg 7).toNat

/-- These bytes stand at `pc`. -/
def BytesAt (s : State) (bs : List Byte) : Prop :=
  s.pc + bs.length ≤ 256 ∧ ∀ k (h : k < bs.length), s.byteAt (s.pc + k) = bs[k]

/-- The 24 opcodes, as the table of R86 lists them. -/
def legalOpcodes : List Byte :=
  [0x82, 0x47, 0x01, 0xA2, 0xA0, 0x45, 0x46, 0x54, 0x84, 0x48, 0x83, 0x50,
   0x11, 0x13, 0xA7, 0x55, 0x56, 0xA8, 0xAA, 0xAB, 0x69, 0xAC, 0xAD, 0xA4]

/-- The `k`-th cell of a frame pushed from SP (R65), `k` from 0. -/
def frameCell (s : State) (k : Nat) : Nat := (s.reg 7 - 1 - BitVec.ofNat 8 k).toNat

end Sys2Proof.Claims

open Sys2Proof Sys2Proof.Machine Sys2Proof.Claims

/-! ### Reset, load, the invariant -/

/-- R43: every piece of state at reset, for every setting of the parameters. The zeros of R0..R6 and FL are the spec's
decision D3 (log 2), SP at reset is D4 (log 3), `prog_top` none is D7 (log 17), the empty output D16 (log 12), the empty interface is D15 (log 9) and log 10. -/
def Obligations.ResetValues : Prop :=
  ∀ c : Config, let s := State.resetWith c
    (∀ addr, s.byteAt addr = 0) ∧ (∀ r : Fin 8, s.reg r = if r = 7 then 244 else 0) ∧ s.pc = 0 ∧ s.fl = 0 ∧
    s.status = .running ∧ s.ie = true ∧ s.progTop = none ∧ s.timerFired = false ∧ s.inputFired = none ∧
    s.stopRequested = false ∧ s.out = [] ∧ s.cfg = c ∧ State.reset = State.resetWith Config.default

/-- The invariant holds right after reset, whatever the parameters. -/
def Obligations.ResetMeetsInvariant : Prop :=
  (∀ c : Config, c.Valid → (State.resetWith c).Inv) ∧ State.reset.Inv

/-- Every step keeps the invariant: canonical memory, `pc` at most one past the last cell (within R25's 0..258), valid
parameters, a faulted status that records what R183 says. A step is the machine's own, or one of any kind that a free
environment chooses (R114); and the load of any image starts from the invariant. -/
def Obligations.StepKeepsInvariant : Prop :=
  (∀ s t : State, s.Inv → step s = .next t → t.Inv) ∧
  (∀ (k : StepKind) (s t : State), s.Inv → transition k s = .next t → t.Inv) ∧
  ∀ (c : Config) (image : List Byte), c.Valid → (boot c image).Inv

/-- Under every environment (R114) every state reached from the load of any image meets the invariant. -/
def Obligations.RunFromLoadKeepsInvariant : Prop :=
  ∀ (c : Config) (image : List Byte) (ks : List StepKind) (t : State),
    c.Valid → runKinds ks (boot c image) = .next t → t.Inv

/-- R226: the load writes the image from address 0, past the protection of the vector table, and sets `prog_top`; more
than 256 bytes are ProgramTooLarge and write nothing (R227, D23, log 23). -/
def Obligations.LoadWritesImage : Prop :=
  ∀ (c : Config) (image : List Byte),
    (256 < image.length →
      boot c image = { State.resetWith c with status := .faulted (.programTooLarge image.length) }) ∧
    (image.length ≤ 256 →
      (∀ k (h : k < image.length), (boot c image).byteAt k = image[k]) ∧
      (∀ addr, image.length ≤ addr → (boot c image).byteAt addr = 0) ∧
      (image.length = 0 → (boot c image).progTop = none) ∧
      (0 < image.length → ∃ top, (boot c image).progTop = some top ∧ top.toNat = image.length - 1) ∧
      boot c image = { State.resetWith c with mem := (boot c image).mem, progTop := (boot c image).progTop })

/-- R235: an image longer than 244 bytes meets StackOverflow in the very first iteration (decisions D6, D7; logs 6, 17). -/
def Obligations.LongImageOverflowsAtOnce : Prop :=
  ∀ (c : Config) (image : List Byte), 244 < image.length → image.length ≤ 256 →
    step (boot c image) = .next { boot c image with status := .faulted (.stackOverflow 244) }

/-! ### Encoding -/

/-- Decoding the bytes of any instruction gives it back, whatever follows. -/
def Obligations.DecodeOfEncode : Prop :=
  ∀ (i : Instr) (rest : List Byte), decode (encode i ++ rest) = .ok (i, rest)

/-- Bytes that decode are the encoding of what they decode to: each word has one meaning. -/
def Obligations.EncodeOfDecode : Prop :=
  ∀ (bs rest : List Byte) (i : Instr), decode bs = .ok (i, rest) → encode i ++ rest = bs

/-- R81: the top two bits of the opcode are the operand count, one more is the length, and the count is never 3. -/
def Obligations.LengthFromTopBits : Prop :=
  ∀ i : Instr, (i.opcode >>> 6).toNat = i.operandBytes.length ∧ (encode i).length = (i.opcode >>> 6).toNat + 1 ∧
    (i.opcode >>> 6).toNat ≠ 3

/-- Words written out from R86 decode to the instructions they stand for. -/
def Obligations.SpecWordsDecode : Prop :=
  decodeTableWord 24 0x080082 = some (.ldi 0 8) ∧ decodeTableWord 24 0x0100A0 = some (.add 0 1) ∧
  decodeTableWord 24 0x0100AC = some (.shl 0 1) ∧ decodeTableWord 24 0x010084 = some (.st 0 1) ∧
  decodeTableWord 16 0x0454 = some (.jmp 4) ∧ decodeTableWord 16 0x0150 = some (.call 1) ∧
  decodeTableWord 8 0x13 = some .iret ∧ decodeTableWord 8 0x01 = some .hlt ∧
  decodeTableWord 16 0x0047 = some (.prn 0) ∧ decodeTableWord 8 0x00 = none ∧ decodeTableWord 16 0x0065 = none ∧
  decodeTableWord 24 0x0000C0 = none

/-- R88: the 232 byte values that are no opcode stop the machine with IllegalInstruction at the opcode's address, whatever
follows and with nothing else changed. -/
def Obligations.IllegalOpcodesStop : Prop :=
  ((List.range 256).filter fun n => decide (BitVec.ofNat 8 n ∉ legalOpcodes)).length = 232 ∧
  ∀ s : State, Idle s → NoInterrupt s → StackClear s → s.pc < 256 → s.byteAt s.pc ∉ legalOpcodes →
    step s = .next { s with status := .faulted (.illegalInstruction s.pc) }

/-! ### The loop -/

/-- When the bytes at `pc` decode to an instruction, no interrupt is due and the stack is clear, the step is that
instruction, and nothing is added around it. -/
def Obligations.StepRunsDecodedInstruction : Prop :=
  ∀ (s : State) (bs rest : List Byte) (i : Instr), Idle s → NoInterrupt s → StackClear s → BytesAt s bs →
    decode bs = .ok (i, rest) → step s = exec i s

/-- R105, R106, R107, R108 in the order of R192 (decisions D7, D11; logs 17, 19): the overflow check first, then the opcode fetch, then
the legality of the opcode, then the operand fetch, whose faulting address is 256. -/
def Obligations.FetchFaultsInOrder : Prop :=
  ∀ s : State, Idle s → NoInterrupt s →
    (¬ StackClear s → step s = .next { s with status := .faulted (.stackOverflow (s.reg 7)) }) ∧
    (StackClear s → 256 ≤ s.pc → step s = .next { s with status := .faulted (.addressingFault s.pc) }) ∧
    (StackClear s → s.pc < 256 → s.byteAt s.pc ∉ legalOpcodes →
      step s = .next { s with status := .faulted (.illegalInstruction s.pc) }) ∧
    (StackClear s → s.pc < 256 → s.byteAt s.pc ∈ legalOpcodes → 256 ≤ s.pc + (s.byteAt s.pc >>> 6).toNat →
      step s = .next { s with status := .faulted (.addressingFault 256) })

/-- R110: an instruction that completes has advanced `pc` by its length, on unbounded numbers, or has set it to a byte,
which only the six transfers do. -/
def Obligations.PcAdvancesOrIsSet : Prop :=
  ∀ (i : Instr) (s t : State), exec i s = .next t → s.status = .running → (∀ f, t.status ≠ .faulted f) →
    t.pc = s.pc + (encode i).length ∨ (i.opcode ∈ [0x54, 0x55, 0x56, 0x50, 0x11, 0x13] ∧ t.pc < 256)

/-- An iteration that raises a fault keeps none of its changes (R112, R182; decision D12, log 7). -/
def Obligations.FaultKeepsStateBefore : Prop :=
  ∀ (s t : State) (f : Fault), step s = .next t → s.status = .running → t.status = .faulted f →
    t = { s with status := .faulted f }

/-- A machine that is not running is not changed by any step of any kind (R35, R113; decision D28, log 8). A halted or stopped
machine answers its own state, a faulted one the fault it stopped with (log 8). -/
def Obligations.EndedMachineStaysEnded : Prop :=
  ∀ s : State,
    (s.status = .halted ∨ s.status = .stopped → step s = .next s ∧ ∀ k, transition k s = .next s) ∧
    (∀ f, s.status = .faulted f → step s = .fault f ∧ ∀ k, transition k s = .fault f) ∧
    (s.status ≠ .running → ∀ e, deliver e s = s)

/-! ### Interrupts and events -/

/-- R202: the lowest eligible line is taken within one step. The frame of eight bytes is pushed, `ie` is cleared, the
line's bit of IS is cleared, `pc` is the vector's byte, and nothing else differs. -/
def Obligations.InterruptEntrySavesFrame : Prop :=
  ∀ (s : State) (n : Fin 8), Idle s → Memory.wf s.mem → s.ie = true → Eligible s n → (∀ m, m < n → ¬ Eligible s m) →
    s.pc < 256 → (∀ k, k < 8 → MayWrite s (frameCell s k)) →
    ∃ t, step s = .next t ∧ t.ie = false ∧ t.reg 7 = s.reg 7 - 8 ∧
      (∀ k : Fin 8, (t.reg 6).getLsbD k = (decide (k ≠ n) && (s.reg 6).getLsbD k)) ∧
      (t.byteAt (frameCell s 0)).toNat = s.pc ∧ t.byteAt (frameCell s 1) = s.fl ∧
      t.byteAt (frameCell s 2) = s.reg 0 ∧ t.byteAt (frameCell s 3) = s.reg 1 ∧
      t.byteAt (frameCell s 4) = s.reg 2 ∧ t.byteAt (frameCell s 5) = s.reg 3 ∧
      t.byteAt (frameCell s 6) = s.reg 4 ∧ t.byteAt (frameCell s 7) = s.reg 5 ∧
      t.pc = (t.byteAt (248 + n)).toNat ∧ t.fl = s.fl ∧ t.status = s.status ∧ t.out = s.out ∧
      Frame [6, 7] ((List.range 8).map (frameCell s)) s t

/-- R203: the entry faults for a `pc` that fits no cell (decision D2, log 5), else for the first push that lands in the protected
table; it is then undone as a whole (decision D12, log 7). -/
def Obligations.InterruptEntryFaults : Prop :=
  ∀ s : State, Idle s → s.ie = true → (∃ n, Eligible s n) →
    (256 ≤ s.pc → step s = .next { s with status := .faulted (.addressingFault s.pc) }) ∧
    (s.pc < 256 → s.cfg.vtProtect = true → (s.reg 7).toNat < 8 →
      step s = .next { s with status := .faulted (.addressingFault 255) }) ∧
    (s.pc < 256 → s.cfg.vtProtect = true → 249 ≤ (s.reg 7).toNat →
      step s = .next { s with status := .faulted (.addressingFault ((s.reg 7).toNat - 1)) })

/-- "IRET must restore exactly that state and re-enable interrupts": an interrupt taken and returned from at once gives
back pc, FL, R0..R5 and SP, with `ie` true, wherever the frame does not meet the underflow limit 244. -/
def Obligations.IretRestoresInterruptedState : Prop :=
  ∀ s t : State, Idle s → Memory.wf s.mem → s.ie = true → (∃ n, Eligible s n) → step s = .next t →
    (∀ f, t.status ≠ .faulted f) → ¬ (245 ≤ (s.reg 7).toNat ∧ (s.reg 7).toNat ≤ 252) →
    ∃ u, exec .iret t = .next u ∧ u.pc = s.pc ∧ u.fl = s.fl ∧ u.ie = true ∧
      (∀ r : Fin 8, r ≠ 6 → u.reg r = s.reg r) ∧ u.reg 6 = t.reg 6 ∧ (∀ addr, u.byteAt addr = t.byteAt addr) ∧
      u.status = s.status ∧ u.out = s.out ∧ HostKept s u

/-- R36, R194: only an interrupt entry clears `ie`, only IRET sets it. -/
def Obligations.InterruptEnableChanges : Prop :=
  ∀ s t : State, step s = .next t →
    (s.ie = true → t.ie = false → Idle s ∧ ∃ n, Eligible s n) ∧
    (s.ie = false → t.ie = true → Idle s ∧ s.pc < 256 ∧ s.byteAt s.pc = 0x13)

/-- R199 (decision D15, log 9): a delivery sets one bit of IS, the input source's also writes the cell at 244, and nothing else
differs; neither looks at `ie` or IM. -/
def Obligations.DeliverySetsPendingBit : Prop :=
  ∀ s : State, s.status = .running → Memory.wf s.mem →
    (∃ t, transition (.deliver .timer) s = .next t ∧
      (∀ k : Fin 8, (t.reg 6).getLsbD k = ((s.reg 6).getLsbD k || decide (k = s.cfg.timerLine))) ∧
      t.pc = s.pc ∧ Frame [6] [] s t ∧ ControlKept s t) ∧
    ∀ key : Option Byte, ∃ t, transition (.deliver (.input key)) s = .next t ∧
      (∀ k : Fin 8, (t.reg 6).getLsbD k = ((s.reg 6).getLsbD k || decide (k = s.cfg.inputLine))) ∧
      t.byteAt 244 = key.getD 0 ∧ t.pc = s.pc ∧ Frame [6] [244] s t ∧ ControlKept s t

/-- What the interface holds is served one thing a step, before an iteration: the stop (R102), the timer, the input (R38).
The order is the model's choice (log 9). -/
def Obligations.HeldEventsServedFirst : Prop :=
  ∀ s : State, s.status = .running →
    (s.stopRequested = true → step s = .next { s with status := .stopped }) ∧
    (s.stopRequested = false → s.timerFired = true →
      step s = transition (.deliver .timer) { s with timerFired := false }) ∧
    (s.stopRequested = false → s.timerFired = false → ∀ key, s.inputFired = some key →
      step s = transition (.deliver (.input key)) { s with inputFired := none }) ∧
    (Idle s → step s = transition .iterate s)

/-- R240, R241: firings of one line that arrive before it is taken merge; a later input byte replaces an earlier one. -/
def Obligations.RepeatedFiringsMerge : Prop :=
  ∀ s : State, Memory.wf s.mem →
    deliver .timer (deliver .timer s) = deliver .timer s ∧
    ∀ k l : Option Byte, deliver (.input l) (deliver (.input k) s) = deliver (.input l) s

/-! ### Rules of the whole machine -/

/-- R29, R230: a bit of FL becomes 0 only in a step that executes IRET. -/
def Obligations.FlagBitsClearedOnlyByIret : Prop :=
  ∀ (s t : State) (k : Nat), step s = .next t → s.fl.getLsbD k = true → t.fl.getLsbD k = false →
    Idle s ∧ s.pc < 256 ∧ s.byteAt s.pc = 0x13

/-- R30: no instruction reads a bit of FL other than bit 0. Two states that differ only in FL, with bit 0 the same, run
every instruction alike up to FL itself, and every bit on which the two FL agreed is a bit on which they agree after:
bit 0 among them, so the relation between the states is kept. -/
def Obligations.OnlyFlagBitZeroIsRead : Prop :=
  ∀ (i : Instr) (s : State) (fl : Byte), fl.getLsbD 0 = s.fl.getLsbD 0 →
    ∃ t u, exec i s = .next t ∧ exec i { s with fl := fl } = .next u ∧ u = { t with fl := u.fl } ∧
      ∀ k : Nat, fl.getLsbD k = s.fl.getLsbD k → u.fl.getLsbD k = t.fl.getLsbD k

/-- R51: the writers of memory during a run are ST, the pushes of PUSH, CALL and interrupt entry, and the input deposit
at 244. A cell changes only in an iteration that executes one of the three instructions, in one that takes an interrupt
(and then in its frame), or in the delivery of a held input. -/
def Obligations.MemoryWriters : Prop :=
  ∀ (s t : State) (addr : Nat), Memory.wf s.mem → step s = .next t → t.byteAt addr ≠ s.byteAt addr →
    (Idle s ∧ NoInterrupt s ∧ StackClear s ∧ s.pc < 256 ∧ s.byteAt s.pc ∈ [0x84, 0x45, 0x50]) ∨
      (Idle s ∧ s.ie = true ∧ (∃ n, Eligible s n) ∧ ∃ k, k < 8 ∧ addr = frameCell s k) ∨
      (s.status = .running ∧ s.stopRequested = false ∧ s.timerFired = false ∧ s.inputFired ≠ none ∧ addr = 244)

/-- R58: while VT_PROTECT is true no step changes a cell of the vector table. -/
def Obligations.VectorTableProtected : Prop :=
  ∀ (s t : State) (addr : Nat), Memory.wf s.mem → s.cfg.vtProtect = true → step s = .next t → 248 ≤ addr →
    t.byteAt addr = s.byteAt addr

/-- R37, R39: `prog_top` never changes during a run, the output only grows, and (log 6) the parameters are fixed. -/
def Obligations.FixedDuringRun : Prop :=
  ∀ s t : State, step s = .next t → t.progTop = s.progTop ∧ t.cfg = s.cfg ∧ s.out <+: t.out

/-- R185, R192: an operand byte that names no register stops the instruction, the first such byte being reported, before
any effect; no other instruction raises InvalidRegister. -/
def Obligations.InvalidRegisterExactly : Prop :=
  (∀ (i : Instr) (s : State) (r : Byte), i.firstInvalid = some r → StopsWith i s (.invalidRegister r)) ∧
  ∀ (i : Instr) (s t : State) (r : Byte), i.wellFormed = true → s.status = .running → exec i s = .next t →
    t.status ≠ .faulted (.invalidRegister r)

/-! ### Memory accesses and the stack -/

/-- R52, R53: the bound check of a read and of a write, the protection of the vector table, and that a write changes
exactly one cell and nothing else. -/
def Obligations.MemoryAccessRules : Prop :=
  ∀ (s : State) (addr : Nat) (v : Byte), Memory.wf s.mem →
    (256 ≤ addr → memRead s addr = .error (.addressingFault addr)) ∧
    (addr < 256 → memRead s addr = .ok (s.byteAt addr)) ∧
    (256 ≤ addr ∨ WriteFaults s addr → memWrite s addr v = .error (.addressingFault addr)) ∧
    (addr < 256 → MayWrite s addr → ∃ t, memWrite s addr v = .ok t ∧ t.byteAt addr = v ∧
      (∀ other, other ≠ addr → t.byteAt other = s.byteAt other) ∧ t = { s with mem := t.mem })

/-- "`push(x); pop() == x` for any single push/pop pair, and SP returns to its pre-push value", as PUSH then POP, wherever
the push may write and does not leave SP at the underflow limit. -/
def Obligations.PushThenPop : Prop :=
  ∀ (s : State) (a b : Fin 8), Memory.wf s.mem → b ≠ 7 → s.reg 7 ≠ 245 → MayWrite s (frameCell s 0) →
    ∃ t u, exec (.push (regIndex a)) s = .next t ∧ exec (.pop (regIndex b)) t = .next u ∧
      u.reg b = s.reg a ∧ u.pc = s.pc + 4 ∧ Frame [b] [frameCell s 0] s u ∧ ControlKept s u

/-- CALL then RET comes back to the instruction after the CALL, with every register as before, wherever the return address
fits a cell, may be written and does not lie at the underflow limit. -/
def Obligations.CallThenRet : Prop :=
  ∀ (s : State) (a : Fin 8), Memory.wf s.mem → s.pc + 2 < 256 → s.reg 7 ≠ 245 → MayWrite s (frameCell s 0) →
    ∃ t u, exec (.call (regIndex a)) s = .next t ∧ t.pc = (s.reg a).toNat ∧ exec .ret t = .next u ∧
      u.pc = s.pc + 2 ∧ Frame [] [frameCell s 0] s u ∧ ControlKept s u

/-! ### Arithmetic -/

/-- R121. -/
def Obligations.AddWritesSum : Prop :=
  ∀ s : State, (∀ a b : Byte, encode (.add a b) = [0xA0, a, b] ∧ ChecksTwo (.add a b) a b s) ∧
    ∀ a b : Fin 8, ∃ t, WritesRegister (.add (regIndex a) (regIndex b)) s t a 3 ∧
      (t.reg a).toNat = ((s.reg a).toNat + (s.reg b).toNat) % 256

/-- R122. -/
def Obligations.MulWritesLowByte : Prop :=
  ∀ s : State, (∀ a b : Byte, encode (.mul a b) = [0xA2, a, b] ∧ ChecksTwo (.mul a b) a b s) ∧
    ∀ a b : Fin 8, ∃ t, WritesRegister (.mul (regIndex a) (regIndex b)) s t a 3 ∧
      (t.reg a).toNat = ((s.reg a).toNat * (s.reg b).toNat) % 256

/-- R123; that the operands are unsigned is decision D10 (log 16). A zero divisor is DivisionByZero with `pc`. -/
def Obligations.ModWritesRemainder : Prop :=
  ∀ s : State, (∀ a b : Byte, encode (.mod a b) = [0xA4, a, b] ∧ ChecksTwo (.mod a b) a b s) ∧
    ∀ a b : Fin 8,
      (s.reg b = 0 → StopsWith (.mod (regIndex a) (regIndex b)) s (.divisionByZero s.pc)) ∧
      (s.reg b ≠ 0 → ∃ t, WritesRegister (.mod (regIndex a) (regIndex b)) s t a 3 ∧
        (t.reg a).toNat = (s.reg a).toNat % (s.reg b).toNat)

/-- R124; unsigned bytes (D10, log 16) with the first operand on the left, as the spec derives (log 25). One bit is ORed into FL, none is
cleared, no register is written. -/
def Obligations.CmpOrsOneFlag : Prop :=
  ∀ s : State, (∀ a b : Byte, encode (.cmp a b) = [0xA7, a, b] ∧ ChecksTwo (.cmp a b) a b s) ∧
    ∀ a b : Fin 8, ∃ t, exec (.cmp (regIndex a) (regIndex b)) s = .next t ∧
      (∀ k : Nat, t.fl.getLsbD k = (s.fl.getLsbD k ||
        decide (k = 0 ∧ (s.reg a).toNat = (s.reg b).toNat ∨ k = 1 ∧ (s.reg b).toNat < (s.reg a).toNat ∨
          k = 2 ∧ (s.reg a).toNat < (s.reg b).toNat))) ∧
      t.pc = s.pc + 3 ∧ Frame [] [] s t ∧ t.ie = s.ie ∧ t.status = s.status ∧ t.out = s.out

/-- "CMP(a,b) where registers hold equal values sets FL bit0; a subsequent JEQ must branch; JNE must not." -/
def Obligations.EqualCompareDecidesBranches : Prop :=
  ∀ (s : State) (a b c : Fin 8), s.reg a = s.reg b →
    ∃ t, exec (.cmp (regIndex a) (regIndex b)) s = .next t ∧
      exec (.jeq (regIndex c)) t = .next { t with pc := (s.reg c).toNat } ∧
      exec (.jne (regIndex c)) t = .next { t with pc := s.pc + 5 }

/-- R125, R126, R127: the ALU operations that no opcode reaches (decision D14, log 20; add-immediate as the spec reads its name). -/
def Obligations.AluOperationsWithoutOpcode : Prop :=
  ∀ (s : State) (r : Fin 8) (v : Byte),
    (∃ t, aluApply .addImmediate (regIndex r) (.immediate v) s = .ok t ∧
      (t.reg r).toNat = ((s.reg r).toNat + v.toNat) % 256 ∧ Frame [r] [] s t ∧ ControlKept s t ∧ t.pc = s.pc) ∧
    (∃ t, aluApply .increment (regIndex r) .unary s = .ok t ∧
      (t.reg r).toNat = ((s.reg r).toNat + 1) % 256 ∧ Frame [r] [] s t ∧ ControlKept s t ∧ t.pc = s.pc) ∧
    (∃ t, aluApply .decrement (regIndex r) .unary s = .ok t ∧
      (t.reg r).toNat = ((s.reg r).toNat + 255) % 256 ∧ Frame [r] [] s t ∧ ControlKept s t ∧ t.pc = s.pc)

/-! ### Bitwise -/

/-- R131, R132, R133. -/
def Obligations.BitwiseBinary : Prop :=
  ∀ s : State,
    (∀ a b : Byte, encode (.and a b) = [0xA8, a, b] ∧ encode (.or a b) = [0xAA, a, b] ∧
      encode (.xor a b) = [0xAB, a, b] ∧ ChecksTwo (.and a b) a b s ∧ ChecksTwo (.or a b) a b s ∧
      ChecksTwo (.xor a b) a b s) ∧
    ∀ a b : Fin 8,
      (∃ t, WritesRegister (.and (regIndex a) (regIndex b)) s t a 3 ∧
        ∀ k : Nat, (t.reg a).getLsbD k = ((s.reg a).getLsbD k && (s.reg b).getLsbD k)) ∧
      (∃ t, WritesRegister (.or (regIndex a) (regIndex b)) s t a 3 ∧
        ∀ k : Nat, (t.reg a).getLsbD k = ((s.reg a).getLsbD k || (s.reg b).getLsbD k)) ∧
      (∃ t, WritesRegister (.xor (regIndex a) (regIndex b)) s t a 3 ∧
        ∀ k : Nat, (t.reg a).getLsbD k = ((s.reg a).getLsbD k != (s.reg b).getLsbD k))

/-- R134. -/
def Obligations.NotWritesComplement : Prop :=
  ∀ s : State, (∀ a : Byte, encode (.not a) = [0x69, a] ∧ ChecksOne (.not a) a s) ∧
    ∀ a : Fin 8, ∃ t, WritesRegister (.not (regIndex a)) s t a 2 ∧ (t.reg a).toNat = 255 - (s.reg a).toNat ∧
      ∀ k : Nat, k < 8 → (t.reg a).getLsbD k = !(s.reg a).getLsbD k

/-- R135, R136; the whole-byte count is decision D9 (log 13) and the logical right shift decision D10 (log 16). A count of 8
or more gives 0. -/
def Obligations.ShiftsByWholeByte : Prop :=
  ∀ s : State,
    (∀ a b : Byte, encode (.shl a b) = [0xAC, a, b] ∧ encode (.shr a b) = [0xAD, a, b] ∧
      ChecksTwo (.shl a b) a b s ∧ ChecksTwo (.shr a b) a b s) ∧
    ∀ a b : Fin 8,
      (∃ t, WritesRegister (.shl (regIndex a) (regIndex b)) s t a 3 ∧
        (t.reg a).toNat = ((s.reg a).toNat * 2 ^ (s.reg b).toNat) % 256 ∧
        (8 ≤ (s.reg b).toNat → t.reg a = 0)) ∧
      (∃ t, WritesRegister (.shr (regIndex a) (regIndex b)) s t a 3 ∧
        (t.reg a).toNat = (s.reg a).toNat / 2 ^ (s.reg b).toNat ∧
        (8 ≤ (s.reg b).toNat → t.reg a = 0))

/-! ### Memory access -/

/-- R141. -/
def Obligations.LdiWritesImmediate : Prop :=
  ∀ (s : State) (v : Byte), (∀ a : Byte, encode (.ldi a v) = [0x82, a, v] ∧ ChecksOne (.ldi a v) a s) ∧
    ∀ a : Fin 8, ∃ t, WritesRegister (.ldi (regIndex a) v) s t a 3 ∧ t.reg a = v

/-- R142: the read cannot fault, and may be of any cell. -/
def Obligations.LdReadsCell : Prop :=
  ∀ s : State, (∀ a b : Byte, encode (.ld a b) = [0x83, a, b] ∧ ChecksTwo (.ld a b) a b s) ∧
    ∀ a b : Fin 8, ∃ t, WritesRegister (.ld (regIndex a) (regIndex b)) s t a 3 ∧
      t.reg a = s.byteAt (s.reg b).toNat

/-- R143: the address register is the first operand; a store into the protected table faults; no register is written and
`prog_top` does not move. -/
def Obligations.StWritesCell : Prop :=
  ∀ s : State, Memory.wf s.mem → (∀ a b : Byte, encode (.st a b) = [0x84, a, b] ∧ ChecksTwo (.st a b) a b s) ∧
    ∀ a b : Fin 8,
      (WriteFaults s (s.reg a).toNat →
        StopsWith (.st (regIndex a) (regIndex b)) s (.addressingFault (s.reg a).toNat)) ∧
      (MayWrite s (s.reg a).toNat → ∃ t, exec (.st (regIndex a) (regIndex b)) s = .next t ∧
        t.byteAt (s.reg a).toNat = s.reg b ∧ t.pc = s.pc + 3 ∧ Frame [] [(s.reg a).toNat] s t ∧ ControlKept s t)

/-- R72, R239: a store is seen by the very next fetch. An ST that writes the HLT opcode over the instruction after it is
followed by a step that halts, whatever stood there. -/
def Obligations.StoreSeenByNextFetch : Prop :=
  ∀ (s : State) (a b : Fin 8), Idle s → Memory.wf s.mem → NoInterrupt s → StackClear s → (s.reg a).toNat = s.pc + 3 →
    s.reg b = 0x01 → MayWrite s (s.reg a).toNat →
    ∃ t, exec (.st (regIndex a) (regIndex b)) s = .next t ∧
      step t = .next { t with pc := s.pc + 4, status := .halted }

/-- R144: the value is read before SP moves; a push into the protected table faults. -/
def Obligations.PushWritesBelowSp : Prop :=
  ∀ s : State, Memory.wf s.mem → (∀ a : Byte, encode (.push a) = [0x45, a] ∧ ChecksOne (.push a) a s) ∧
    ∀ a : Fin 8,
      (WriteFaults s (s.reg 7 - 1).toNat →
        StopsWith (.push (regIndex a)) s (.addressingFault (s.reg 7 - 1).toNat)) ∧
      (MayWrite s (s.reg 7 - 1).toNat → ∃ t, exec (.push (regIndex a)) s = .next t ∧
        t.reg 7 = s.reg 7 - 1 ∧ t.byteAt (s.reg 7 - 1).toNat = s.reg a ∧ t.pc = s.pc + 2 ∧
        Frame [7] [(s.reg 7 - 1).toNat] s t ∧ ControlKept s t)

/-- R145: the index is checked first, SP 244 is StackUnderflow, the register is written last (so POP R7 leaves the popped
byte in SP), and memory is not changed. -/
def Obligations.PopReadsAtSp : Prop :=
  ∀ s : State, (∀ a : Byte, encode (.pop a) = [0x46, a] ∧ ChecksOne (.pop a) a s) ∧
    ∀ a : Fin 8,
      (s.reg 7 = 244 → StopsWith (.pop (regIndex a)) s (.stackUnderflow 244)) ∧
      (s.reg 7 ≠ 244 → ∃ t, exec (.pop (regIndex a)) s = .next t ∧
        t.reg a = s.byteAt (s.reg 7).toNat ∧ (a ≠ 7 → t.reg 7 = s.reg 7 + 1) ∧ t.pc = s.pc + 2 ∧
        Frame [a, 7] [] s t ∧ ControlKept s t)

/-! ### Branches, calls, returns -/

/-- R151. -/
def Obligations.JmpSetsPc : Prop :=
  ∀ s : State, (∀ a : Byte, encode (.jmp a) = [0x54, a] ∧ ChecksOne (.jmp a) a s) ∧
    ∀ a : Fin 8, ∃ t, OnlySetsPc (.jmp (regIndex a)) s t (s.reg a).toNat

/-- R152, R153: bit 0 of FL decides; the register is checked although the branch is not taken. -/
def Obligations.ConditionalBranches : Prop :=
  ∀ s : State,
    (∀ a : Byte, encode (.jeq a) = [0x55, a] ∧ encode (.jne a) = [0x56, a] ∧ ChecksOne (.jeq a) a s ∧
      ChecksOne (.jne a) a s) ∧
    ∀ a : Fin 8,
      (∃ t, OnlySetsPc (.jeq (regIndex a)) s t (if s.fl.getLsbD 0 = true then (s.reg a).toNat else s.pc + 2)) ∧
      ∃ t, OnlySetsPc (.jne (regIndex a)) s t (if s.fl.getLsbD 0 = true then s.pc + 2 else (s.reg a).toNat)

/-- R161: the target is read before the push; a return address of 256 or more fits no cell (decision D2, log 5) and a push into
the protected table faults. -/
def Obligations.CallPushesReturnAddress : Prop :=
  ∀ s : State, Memory.wf s.mem → (∀ a : Byte, encode (.call a) = [0x50, a] ∧ ChecksOne (.call a) a s) ∧
    ∀ a : Fin 8,
      (256 ≤ s.pc + 2 → StopsWith (.call (regIndex a)) s (.addressingFault (s.pc + 2))) ∧
      (s.pc + 2 < 256 → WriteFaults s (s.reg 7 - 1).toNat →
        StopsWith (.call (regIndex a)) s (.addressingFault (s.reg 7 - 1).toNat)) ∧
      (s.pc + 2 < 256 → MayWrite s (s.reg 7 - 1).toNat → ∃ t, exec (.call (regIndex a)) s = .next t ∧
        t.reg 7 = s.reg 7 - 1 ∧ (t.byteAt (s.reg 7 - 1).toNat).toNat = s.pc + 2 ∧ t.pc = (s.reg a).toNat ∧
        Frame [7] [(s.reg 7 - 1).toNat] s t ∧ ControlKept s t)

/-- R162: RET pops `pc`, touches neither FL nor `ie`, and faults at SP 244. -/
def Obligations.RetPopsPc : Prop :=
  ∀ s : State, encode .ret = [0x11] ∧
    (s.reg 7 = 244 → StopsWith .ret s (.stackUnderflow 244)) ∧
    (s.reg 7 ≠ 244 → ∃ t, exec .ret s = .next t ∧ t.pc = (s.byteAt (s.reg 7).toNat).toNat ∧
      t.reg 7 = s.reg 7 + 1 ∧ Frame [7] [] s t ∧ ControlKept s t)

/-- R163: IRET pops R5, R4, R3, R2, R1, R0, FL and `pc`, sets `ie`, and leaves R6, the memory and the rest alone; SP in
237..244 is StackUnderflow with none of the pops kept. -/
def Obligations.IretPopsFrame : Prop :=
  ∀ s : State, encode .iret = [0x13] ∧
    (237 ≤ (s.reg 7).toNat → (s.reg 7).toNat ≤ 244 → StopsWith .iret s (.stackUnderflow 244)) ∧
    ((s.reg 7).toNat < 237 ∨ 244 < (s.reg 7).toNat → ∃ t, exec .iret s = .next t ∧
      t.reg 5 = s.byteAt (s.reg 7).toNat ∧ t.reg 4 = s.byteAt (s.reg 7 + 1).toNat ∧
      t.reg 3 = s.byteAt (s.reg 7 + 2).toNat ∧ t.reg 2 = s.byteAt (s.reg 7 + 3).toNat ∧
      t.reg 1 = s.byteAt (s.reg 7 + 4).toNat ∧ t.reg 0 = s.byteAt (s.reg 7 + 5).toNat ∧
      t.fl = s.byteAt (s.reg 7 + 6).toNat ∧ t.pc = (s.byteAt (s.reg 7 + 7).toNat).toNat ∧
      t.reg 7 = s.reg 7 + 8 ∧ t.reg 6 = s.reg 6 ∧ t.ie = true ∧ t.status = s.status ∧ t.out = s.out ∧
      (∀ addr, t.byteAt addr = s.byteAt addr) ∧ HostKept s t)

/-! ### Halt and output -/

/-- R170: HLT advances `pc` by one and halts; after it nothing has an effect. -/
def Obligations.HltHalts : Prop :=
  ∀ s : State, encode .hlt = [0x01] ∧ ∃ t, exec .hlt s = .next t ∧ t.pc = s.pc + 1 ∧ t.status = .halted ∧
    t.fl = s.fl ∧ t.ie = s.ie ∧ t.out = s.out ∧ Frame [] [] s t ∧ step t = .next t ∧
    ∀ k, transition k t = .next t

/-- R171: PRN emits the register's index and value; the text is decision D16 (log 12). -/
def Obligations.PrnEmitsNumber : Prop :=
  ∀ s : State, (∀ a : Byte, encode (.prn a) = [0x47, a] ∧ ChecksOne (.prn a) a s) ∧
    (∀ a : Fin 8, ∃ t, exec (.prn (regIndex a)) s = .next t ∧
      t.out = s.out ++ [.printNumber (regIndex a) (s.reg a)] ∧ t.pc = s.pc + 2 ∧ Frame [] [] s t ∧
      t.fl = s.fl ∧ t.ie = s.ie ∧ t.status = s.status) ∧
    (OutEvent.printNumber 0 8).render = some "Register_0 has value of 8."

/-- R172 (decision D22, log 12): PRA emits the byte, and nothing for 0. -/
def Obligations.PraEmitsCharacter : Prop :=
  ∀ s : State, (∀ a : Byte, encode (.pra a) = [0x48, a] ∧ ChecksOne (.pra a) a s) ∧
    ∀ a : Fin 8, ∃ t, exec (.pra (regIndex a)) s = .next t ∧
      (s.reg a = 0 → t.out = s.out) ∧ (s.reg a ≠ 0 → t.out = s.out ++ [.printChar (s.reg a)]) ∧
      t.pc = s.pc + 2 ∧ Frame [] [] s t ∧ t.fl = s.fl ∧ t.ie = s.ie ∧ t.status = s.status
end

