-- ==== Sys2Proof/Laws/Memory.lean ====
section
/-! SUPPORT. The laws of the memory: read after write, the canonical form kept by every operation, and equality
of memories that read alike. -/

namespace Sys2Proof.Machine

@[simp] theorem Memory.read_nil (a : Nat) : Memory.read [] a = 0 := rfl

theorem Memory.read_cons (c : Host.Cell) (m : Memory) (a : Nat) :
    Memory.read (c :: m) a = if a = c.1 then c.2 else Memory.read m a := rfl

/-- An address below every listed one reads as an unlisted address. -/
theorem Memory.read_of_lt {m : Memory} {a : Nat} (h : ∀ c ∈ m, a < c.1) : Memory.read m a = 0 := by
  induction m with
  | nil => rfl
  | cons c rest ih =>
    have hc : a < c.1 := h c List.mem_cons_self
    rw [Memory.read_cons, if_neg (Nat.ne_of_lt hc)]
    exact ih fun d hd => h d (List.mem_cons_of_mem _ hd)

theorem Memory.wf_nil : Memory.wf [] := by simp [Memory.wf]

theorem Memory.wf_cons {c : Host.Cell} {m : Memory} :
    Memory.wf (c :: m) ↔ (∀ d ∈ m, c.1 < d.1) ∧ c.1 < memSize ∧ c.2 ≠ 0 ∧ Memory.wf m := by
  simp only [Memory.wf, List.map_cons, List.pairwise_cons, List.mem_map, List.mem_cons, forall_eq_or_imp,
    forall_exists_index, and_imp, forall_apply_eq_imp_iff₂]
  tauto

/-- Everything listed after a write was listed before, or is the cell written, with a value that is not 0. -/
theorem Memory.mem_write {m : Memory} {a : Nat} {v : Byte} {c : Host.Cell} (h : c ∈ Memory.write m a v) :
    c ∈ m ∨ (c = (a, v) ∧ v ≠ 0) := by
  induction m with
  | nil =>
    simp only [Memory.write] at h
    split at h
    · simp at h
    · exact .inr ⟨by simpa using h, ‹_›⟩
  | cons d rest ih =>
    obtain ⟨b, w⟩ := d
    simp only [Memory.write] at h
    split at h
    · split at h
      · exact .inl (List.mem_cons_of_mem _ h)
      · rcases List.mem_cons.mp h with h | h
        · exact .inr ⟨h, ‹_›⟩
        · exact .inl (List.mem_cons_of_mem _ h)
    · split at h
      · split at h
        · exact .inl h
        · rcases List.mem_cons.mp h with h | h
          · exact .inr ⟨h, ‹_›⟩
          · exact .inl h
      · rcases List.mem_cons.mp h with h | h
        · exact .inl (h ▸ List.mem_cons_self)
        · rcases ih h with h | h
          · exact .inl (List.mem_cons_of_mem _ h)
          · exact .inr h

/-- A write to a cell keeps the canonical form. -/
theorem Memory.write_wf {m : Memory} {a : Nat} (v : Byte) (hm : Memory.wf m) (ha : a < memSize) :
    Memory.wf (Memory.write m a v) := by
  induction m with
  | nil =>
    simp only [Memory.write]
    split
    · exact hm
    · exact Memory.wf_cons.mpr ⟨by simp, ha, ‹_›, Memory.wf_nil⟩
  | cons d rest ih =>
    obtain ⟨b, w⟩ := d
    obtain ⟨hlt, hb, hw, hrest⟩ := Memory.wf_cons.mp hm
    simp only [Memory.write]
    split
    · subst a
      split
      · exact hrest
      · exact Memory.wf_cons.mpr ⟨hlt, hb, ‹_›, hrest⟩
    · split
      · split
        · exact hm
        · refine Memory.wf_cons.mpr ⟨?_, ha, ‹_›, hm⟩
          intro c hc
          rcases List.mem_cons.mp hc with rfl | hc
          · assumption
          · exact Nat.lt_trans ‹a < b› (hlt c hc)
      · refine Memory.wf_cons.mpr ⟨?_, hb, hw, ih hrest⟩
        intro c hc
        rcases Memory.mem_write hc with hc | ⟨rfl, -⟩
        · exact hlt c hc
        · show b < a
          omega

/-- Read after write, in a canonical memory. -/
theorem Memory.read_write {m : Memory} (hm : Memory.wf m) (a b : Nat) (v : Byte) :
    Memory.read (Memory.write m a v) b = if b = a then v else Memory.read m b := by
  induction m with
  | nil =>
    simp only [Memory.write]
    split <;> by_cases hb : b = a <;> simp_all [Memory.read]
  | cons d rest ih =>
    obtain ⟨c, w⟩ := d
    obtain ⟨hlt, -, -, hrest⟩ := Memory.wf_cons.mp hm
    have below : a ≤ c → Memory.read rest a = 0 := fun h =>
      Memory.read_of_lt fun e he => Nat.lt_of_le_of_lt h (hlt e he)
    simp only [Memory.write]
    split
    · subst a
      by_cases hb : b = c <;> split <;> simp_all [Memory.read]
    · split
      · have h0 : Memory.read rest a = 0 := below (by omega)
        by_cases hb : b = a <;> split <;> simp_all [Memory.read]
      · rw [Memory.read_cons, ih hrest, Memory.read_cons]
        by_cases hb : b = c <;> by_cases hba : b = a <;> simp_all

/-- Canonical memories that read alike everywhere are equal. -/
theorem Memory.eq_of_read {m n : Memory} (hm : Memory.wf m) (hn : Memory.wf n)
    (h : ∀ a, Memory.read m a = Memory.read n a) : m = n := by
  induction m generalizing n with
  | nil =>
    cases n with
    | nil => rfl
    | cons d rest =>
      have := h d.1
      simp only [Memory.read_nil, Memory.read_cons, if_true] at this
      exact absurd this.symm (Memory.wf_cons.mp hn).2.2.1
  | cons c rest ih =>
    obtain ⟨hlt, -, hc, hrest⟩ := Memory.wf_cons.mp hm
    cases n with
    | nil =>
      have := h c.1
      simp only [Memory.read_nil, Memory.read_cons, if_true] at this
      exact absurd this hc
    | cons d rest' =>
      obtain ⟨hlt', -, hd, hrest'⟩ := Memory.wf_cons.mp hn
      have hkey : c.1 = d.1 := by
        by_contra hne
        rcases Nat.lt_or_gt_of_ne hne with hcd | hcd
        · have := h c.1
          rw [Memory.read_cons, if_pos rfl, Memory.read_cons, if_neg (by omega),
            Memory.read_of_lt fun e he => Nat.lt_trans hcd (hlt' e he)] at this
          exact hc this
        · have := h d.1
          rw [Memory.read_cons, if_neg (by omega), Memory.read_cons, if_pos rfl,
            Memory.read_of_lt fun e he => Nat.lt_trans hcd (hlt e he)] at this
          exact hd this.symm
      have hval : c.2 = d.2 := by
        have := h c.1
        rwa [Memory.read_cons, if_pos rfl, Memory.read_cons, if_pos hkey] at this
      have htail : rest = rest' := by
        refine ih hrest hrest' fun a => ?_
        by_cases ha : a = c.1
        · rw [Memory.read_of_lt fun e he => ha ▸ hlt e he,
            Memory.read_of_lt fun e he => ha ▸ hkey ▸ hlt' e he]
        · have := h a
          rwa [Memory.read_cons, if_neg ha, Memory.read_cons, if_neg (by omega)] at this
      exact List.cons_eq_cons.mpr ⟨Prod.ext hkey hval, htail⟩

/-- A later write to the same cell hides the earlier one. -/
theorem Memory.write_write {m : Memory} (hm : Memory.wf m) {a : Nat} (ha : a < memSize) (v w : Byte) :
    Memory.write (Memory.write m a v) a w = Memory.write m a w := by
  refine Memory.eq_of_read (Memory.write_wf w (Memory.write_wf v hm ha) ha) (Memory.write_wf w hm ha) fun b => ?_
  rw [Memory.read_write (Memory.write_wf v hm ha), Memory.read_write hm, Memory.read_write hm]
  by_cases hb : b = a <;> simp [hb]

/-- The loader's writes keep the canonical form. -/
theorem Memory.store_wf {m : Memory} (bs : List Byte) (a : Nat) (hm : Memory.wf m) :
    Memory.wf (Memory.store m a bs) := by
  induction bs generalizing m a with
  | nil => exact hm
  | cons b bs ih =>
    simp only [Memory.store]
    split
    · exact ih _ (Memory.write_wf _ hm ‹_›)
    · exact ih _ hm

/-- What a cell holds after the loader's writes: the byte that fell on it, or what it held. -/
theorem Memory.read_store {m : Memory} (bs : List Byte) (a b : Nat) (hm : Memory.wf m) :
    Memory.read (Memory.store m a bs) b =
      if a ≤ b ∧ b < memSize then (bs[b - a]?).getD (Memory.read m b) else Memory.read m b := by
  induction bs generalizing m a with
  | nil => simp [Memory.store]
  | cons v bs ih =>
    simp only [Memory.store]
    split
    · rw [ih _ (Memory.write_wf _ hm ‹_›), Memory.read_write hm]
      rcases Nat.lt_trichotomy b a with h | rfl | h
      · rw [if_neg (by omega), if_neg (by omega), if_neg (by omega)]
      · rw [if_neg (by omega), if_pos rfl, if_pos (by omega)]
        simp
      · by_cases hb : b < memSize
        · rw [if_pos (by omega), if_neg (by omega), if_pos (by omega)]
          obtain ⟨k, rfl⟩ : ∃ k, b = a + 1 + k := ⟨b - (a + 1), by omega⟩
          rw [show a + 1 + k - (a + 1) = k by omega, show a + 1 + k - a = k + 1 by omega, List.getElem?_cons_succ]
        · rw [if_neg (by omega), if_neg (by omega), if_neg (by omega)]
    · rw [ih _ hm, if_neg (by omega), if_neg (by omega)]

/-- An address with no cell reads as an unlisted address in a canonical memory. -/
theorem Memory.read_outside {m : Memory} (hm : Memory.wf m) {a : Nat} (ha : memSize ≤ a) : Memory.read m a = 0 := by
  induction m with
  | nil => rfl
  | cons c rest ih =>
    obtain ⟨-, hc, -, hrest⟩ := Memory.wf_cons.mp hm
    rw [Memory.read_cons, if_neg (by omega), ih hrest]

end Sys2Proof.Machine
end

