-- ==== Sys2Proof/Laws/State.lean ====
section
/-! SUPPORT. One lemma per field per named update of the state, and how registers and cells read after it. -/

namespace Sys2Proof.Machine

/-! ### Reading a register or a cell after a record update -/

theorem State.reg_congr {s t : State} (h : t.regs = s.regs) (r : Fin 8) : t.reg r = s.reg r := by
  simp only [State.reg, h]

theorem State.byteAt_congr {s t : State} (h : t.mem = s.mem) (a : Nat) : t.byteAt a = s.byteAt a := by
  simp only [State.byteAt, h]

/-! ### setReg -/

@[simp] theorem State.setReg_cfg (s : State) (r : Fin 8) (v : Byte) : (s.setReg r v).cfg = s.cfg := rfl

@[simp] theorem State.setReg_pc (s : State) (r : Fin 8) (v : Byte) : (s.setReg r v).pc = s.pc := rfl

@[simp] theorem State.setReg_fl (s : State) (r : Fin 8) (v : Byte) : (s.setReg r v).fl = s.fl := rfl

@[simp] theorem State.setReg_mem (s : State) (r : Fin 8) (v : Byte) : (s.setReg r v).mem = s.mem := rfl

@[simp] theorem State.setReg_ie (s : State) (r : Fin 8) (v : Byte) : (s.setReg r v).ie = s.ie := rfl

@[simp] theorem State.setReg_status (s : State) (r : Fin 8) (v : Byte) : (s.setReg r v).status = s.status := rfl

@[simp] theorem State.setReg_progTop (s : State) (r : Fin 8) (v : Byte) : (s.setReg r v).progTop = s.progTop := rfl

@[simp] theorem State.setReg_timerFired (s : State) (r : Fin 8) (v : Byte) : (s.setReg r v).timerFired = s.timerFired := rfl

@[simp] theorem State.setReg_inputFired (s : State) (r : Fin 8) (v : Byte) : (s.setReg r v).inputFired = s.inputFired := rfl

@[simp] theorem State.setReg_stopRequested (s : State) (r : Fin 8) (v : Byte) : (s.setReg r v).stopRequested = s.stopRequested := rfl

@[simp] theorem State.setReg_out (s : State) (r : Fin 8) (v : Byte) : (s.setReg r v).out = s.out := rfl

@[simp] theorem State.setReg_byteAt (s : State) (r : Fin 8) (v : Byte) (a : Nat) :
    (s.setReg r v).byteAt a = s.byteAt a := rfl

theorem State.setReg_reg (s : State) (r q : Fin 8) (v : Byte) :
    (s.setReg r v).reg q = if q = r then v else s.reg q := by
  simp only [State.reg, State.setReg, Fin.getElem_fin, Vector.getElem_set, Fin.ext_iff, eq_comm]

@[simp] theorem State.setReg_reg_same (s : State) (r : Fin 8) (v : Byte) : (s.setReg r v).reg r = v := by
  simp [State.setReg_reg]

@[simp] theorem State.setReg_reg_other (s : State) {r q : Fin 8} (v : Byte) (h : q ≠ r) :
    (s.setReg r v).reg q = s.reg q := by
  simp [State.setReg_reg, h]

/-! ### raise -/

@[simp] theorem raise_cfg (s : State) (f : Fault) : (raise s f).cfg = s.cfg := rfl

@[simp] theorem raise_regs (s : State) (f : Fault) : (raise s f).regs = s.regs := rfl

@[simp] theorem raise_pc (s : State) (f : Fault) : (raise s f).pc = s.pc := rfl

@[simp] theorem raise_fl (s : State) (f : Fault) : (raise s f).fl = s.fl := rfl

@[simp] theorem raise_mem (s : State) (f : Fault) : (raise s f).mem = s.mem := rfl

@[simp] theorem raise_ie (s : State) (f : Fault) : (raise s f).ie = s.ie := rfl

@[simp] theorem raise_progTop (s : State) (f : Fault) : (raise s f).progTop = s.progTop := rfl

@[simp] theorem raise_timerFired (s : State) (f : Fault) : (raise s f).timerFired = s.timerFired := rfl

@[simp] theorem raise_inputFired (s : State) (f : Fault) : (raise s f).inputFired = s.inputFired := rfl

@[simp] theorem raise_stopRequested (s : State) (f : Fault) : (raise s f).stopRequested = s.stopRequested := rfl

@[simp] theorem raise_out (s : State) (f : Fault) : (raise s f).out = s.out := rfl

@[simp] theorem raise_status (s : State) (f : Fault) : (raise s f).status = .faulted f := rfl

@[simp] theorem raise_reg (s : State) (f : Fault) (r : Fin 8) : (raise s f).reg r = s.reg r := rfl

@[simp] theorem raise_byteAt (s : State) (f : Fault) (a : Nat) : (raise s f).byteAt a = s.byteAt a := rfl

/-! ### applyControl -/

@[simp] theorem applyControl_cfg (s : State) (c : ControlAction) : (applyControl s c).cfg = s.cfg := by
  cases c <;> rfl

@[simp] theorem applyControl_regs (s : State) (c : ControlAction) : (applyControl s c).regs = s.regs := by
  cases c <;> rfl

@[simp] theorem applyControl_fl (s : State) (c : ControlAction) : (applyControl s c).fl = s.fl := by
  cases c <;> rfl

@[simp] theorem applyControl_mem (s : State) (c : ControlAction) : (applyControl s c).mem = s.mem := by
  cases c <;> rfl

@[simp] theorem applyControl_ie (s : State) (c : ControlAction) : (applyControl s c).ie = s.ie := by
  cases c <;> rfl

@[simp] theorem applyControl_progTop (s : State) (c : ControlAction) : (applyControl s c).progTop = s.progTop := by
  cases c <;> rfl

@[simp] theorem applyControl_timerFired (s : State) (c : ControlAction) : (applyControl s c).timerFired = s.timerFired := by
  cases c <;> rfl

@[simp] theorem applyControl_inputFired (s : State) (c : ControlAction) : (applyControl s c).inputFired = s.inputFired := by
  cases c <;> rfl

@[simp] theorem applyControl_stopRequested (s : State) (c : ControlAction) : (applyControl s c).stopRequested = s.stopRequested := by
  cases c <;> rfl

@[simp] theorem applyControl_out (s : State) (c : ControlAction) : (applyControl s c).out = s.out := by
  cases c <;> rfl

@[simp] theorem applyControl_reg (s : State) (c : ControlAction) (r : Fin 8) :
    (applyControl s c).reg r = s.reg r := by
  cases c <;> rfl

@[simp] theorem applyControl_byteAt (s : State) (c : ControlAction) (a : Nat) :
    (applyControl s c).byteAt a = s.byteAt a := by
  cases c <;> rfl

@[simp] theorem applyControl_advance_pc (s : State) (n : Nat) : (applyControl s (.advance n)).pc = s.pc + n := rfl

@[simp] theorem applyControl_jumpTo_pc (s : State) (t : Byte) : (applyControl s (.jumpTo t)).pc = t.toNat := rfl

@[simp] theorem applyControl_halt_pc (s : State) : (applyControl s .halt).pc = s.pc + 1 := rfl

@[simp] theorem applyControl_advance_status (s : State) (n : Nat) :
    (applyControl s (.advance n)).status = s.status := rfl

@[simp] theorem applyControl_jumpTo_status (s : State) (t : Byte) :
    (applyControl s (.jumpTo t)).status = s.status := rfl

@[simp] theorem applyControl_halt_status (s : State) : (applyControl s .halt).status = .halted := rfl

/-! ### emit -/

@[simp] theorem emit_cfg (s : State) (e : OutEvent) : (emit s e).cfg = s.cfg := rfl

@[simp] theorem emit_regs (s : State) (e : OutEvent) : (emit s e).regs = s.regs := rfl

@[simp] theorem emit_pc (s : State) (e : OutEvent) : (emit s e).pc = s.pc := rfl

@[simp] theorem emit_fl (s : State) (e : OutEvent) : (emit s e).fl = s.fl := rfl

@[simp] theorem emit_mem (s : State) (e : OutEvent) : (emit s e).mem = s.mem := rfl

@[simp] theorem emit_ie (s : State) (e : OutEvent) : (emit s e).ie = s.ie := rfl

@[simp] theorem emit_status (s : State) (e : OutEvent) : (emit s e).status = s.status := rfl

@[simp] theorem emit_progTop (s : State) (e : OutEvent) : (emit s e).progTop = s.progTop := rfl

@[simp] theorem emit_timerFired (s : State) (e : OutEvent) : (emit s e).timerFired = s.timerFired := rfl

@[simp] theorem emit_inputFired (s : State) (e : OutEvent) : (emit s e).inputFired = s.inputFired := rfl

@[simp] theorem emit_stopRequested (s : State) (e : OutEvent) : (emit s e).stopRequested = s.stopRequested := rfl

@[simp] theorem emit_out (s : State) (e : OutEvent) : (emit s e).out = s.out ++ [e] := rfl

@[simp] theorem emit_reg (s : State) (e : OutEvent) (r : Fin 8) : (emit s e).reg r = s.reg r := rfl

@[simp] theorem emit_byteAt (s : State) (e : OutEvent) (a : Nat) : (emit s e).byteAt a = s.byteAt a := rfl

/-! ### raiseLine -/

@[simp] theorem raiseLine_cfg (s : State) (n : Line) : (raiseLine s n).cfg = s.cfg := rfl

@[simp] theorem raiseLine_pc (s : State) (n : Line) : (raiseLine s n).pc = s.pc := rfl

@[simp] theorem raiseLine_fl (s : State) (n : Line) : (raiseLine s n).fl = s.fl := rfl

@[simp] theorem raiseLine_mem (s : State) (n : Line) : (raiseLine s n).mem = s.mem := rfl

@[simp] theorem raiseLine_ie (s : State) (n : Line) : (raiseLine s n).ie = s.ie := rfl

@[simp] theorem raiseLine_status (s : State) (n : Line) : (raiseLine s n).status = s.status := rfl

@[simp] theorem raiseLine_progTop (s : State) (n : Line) : (raiseLine s n).progTop = s.progTop := rfl

@[simp] theorem raiseLine_timerFired (s : State) (n : Line) : (raiseLine s n).timerFired = s.timerFired := rfl

@[simp] theorem raiseLine_inputFired (s : State) (n : Line) : (raiseLine s n).inputFired = s.inputFired := rfl

@[simp] theorem raiseLine_stopRequested (s : State) (n : Line) : (raiseLine s n).stopRequested = s.stopRequested := rfl

@[simp] theorem raiseLine_out (s : State) (n : Line) : (raiseLine s n).out = s.out := rfl

theorem raiseLine_reg (s : State) (n : Line) (r : Fin 8) :
    (raiseLine s n).reg r = if r = 6 then s.reg 6 ||| lineBit n else s.reg r := by
  simp only [raiseLine, State.setReg_reg, State.intStatus]

end Sys2Proof.Machine
end

