-- ==== Sys2Proof/Laws/Access.lean ====
section
/-! SUPPORT. What each checked access can do, said once: registers, memory cells, the stack, the ends of an
iteration. Later proofs cite these and do not unfold the operations. -/

namespace Sys2Proof.Machine

/-! ### `Except` -/

@[simp] theorem ok_bind {α β : Type} (a : α) (f : α → Except Fault β) : (Except.ok a >>= f) = f a := rfl

@[simp] theorem error_bind {α β : Type} (e : Fault) (f : α → Except Fault β) :
    ((Except.error e : Except Fault α) >>= f) = .error e := rfl

@[simp] theorem pure_eq_ok {α : Type} (a : α) : (pure a : Except Fault α) = .ok a := rfl

/-- A sequence completes when its first part does and what follows does. -/
theorem bind_eq_ok {α β : Type} {x : Except Fault α} {f : α → Except Fault β} {b : β} :
    (x >>= f) = .ok b ↔ ∃ a, x = .ok a ∧ f a = .ok b := by
  cases x <;> simp

/-- A sequence raises what its first part raises, or what follows raises. -/
theorem bind_eq_error {α β : Type} {x : Except Fault α} {f : α → Except Fault β} {e : Fault} :
    (x >>= f) = .error e ↔ x = .error e ∨ ∃ a, x = .ok a ∧ f a = .error e := by
  cases x <;> simp

/-! ### The end of an iteration -/

@[simp] theorem settle_ok (s t : State) : settle s (.ok t) = .next t := rfl

@[simp] theorem settle_error (s : State) (f : Fault) : settle s (.error f) = .next (raise s f) := rfl

/-- The two ways an iteration ends: with its effects, or undone with the fault as status. -/
theorem settle_cases {s t : State} {r : Except Fault State} (h : settle s r = .next t) :
    r = .ok t ∨ ∃ f, r = .error f ∧ t = raise s f := by
  cases r with
  | ok u => exact .inl (by simpa using h)
  | error f => exact .inr ⟨f, rfl, by simpa using h.symm⟩

@[simp] theorem complete_ok (s t : State) (c : ControlAction) :
    complete s (.ok (t, c)) = .next (applyControl t c) := rfl

@[simp] theorem complete_error (s : State) (f : Fault) : complete s (.error f) = .next (raise s f) := rfl

/-- The two ways a handler ends: a control action on the state it made, or the fault it raised. -/
theorem complete_cases {s t : State} {r : HandlerResult} (h : complete s r = .next t) :
    (∃ u c, r = .ok (u, c) ∧ t = applyControl u c) ∨ ∃ f, r = .error f ∧ t = raise s f := by
  cases r with
  | ok e => exact .inl ⟨e.1, e.2, rfl, (Host.Outcome.next.inj h).symm⟩
  | error f => exact .inr ⟨f, rfl, by simpa using h.symm⟩

/-- An iteration always ends in a next state. -/
theorem complete_next (s : State) (r : HandlerResult) : ∃ t, complete s r = .next t := by
  cases r with
  | ok e => exact ⟨_, rfl⟩
  | error f => exact ⟨_, rfl⟩

/-! ### Registers -/

theorem regIndex_toNat (r : Fin 8) : (regIndex r).toNat = r.val := by
  have := r.isLt
  simp only [regIndex, BitVec.toNat_ofNat]
  omega

/-- An operand byte below 8 is the index of a register. -/
theorem exists_regIndex {b : Byte} (h : b.toNat < 8) : ∃ r, b = regIndex r :=
  ⟨⟨b.toNat, h⟩, by simp [regIndex]⟩

@[simp] theorem checkReg_regIndex (r : Fin 8) : checkReg (regIndex r) = .ok r := by
  have := r.isLt
  simp only [checkReg, regIndex_toNat, this, dif_pos]

theorem checkReg_invalid {b : Byte} (h : 8 ≤ b.toNat) : checkReg b = .error (.invalidRegister b) := by
  rw [checkReg, dif_neg (by omega)]

/-- A register check passes exactly on the index of a register. -/
theorem checkReg_eq_ok {b : Byte} {r : Fin 8} : checkReg b = .ok r ↔ b = regIndex r := by
  constructor
  · intro h
    rcases Nat.lt_or_ge b.toNat 8 with hb | hb
    · obtain ⟨q, rfl⟩ := exists_regIndex hb
      rw [checkReg_regIndex] at h
      rw [Except.ok.inj h]
    · rw [checkReg_invalid hb] at h
      cases h
  · rintro rfl
    exact checkReg_regIndex r

theorem checkReg_eq_error {b : Byte} {f : Fault} :
    checkReg b = .error f ↔ 8 ≤ b.toNat ∧ f = .invalidRegister b := by
  rcases Nat.lt_or_ge b.toNat 8 with hb | hb
  · obtain ⟨q, rfl⟩ := exists_regIndex hb
    simp only [checkReg_regIndex, reduceCtorEq, false_iff]
    omega
  · simp only [checkReg_invalid hb, Except.error.injEq, hb, true_and, eq_comm]

@[simp] theorem readReg_regIndex (s : State) (r : Fin 8) : readReg s (regIndex r) = .ok (s.reg r) := by
  simp [readReg]

theorem readReg_invalid (s : State) {b : Byte} (h : 8 ≤ b.toNat) :
    readReg s b = .error (.invalidRegister b) := by
  simp [readReg, checkReg_invalid h]

theorem readReg_eq_ok {s : State} {b v : Byte} : readReg s b = .ok v ↔ ∃ r, b = regIndex r ∧ v = s.reg r := by
  simp only [readReg, bind_eq_ok, checkReg_eq_ok, pure_eq_ok, Except.ok.injEq, eq_comm (a := v)]

theorem readReg_eq_error {s : State} {b : Byte} {f : Fault} :
    readReg s b = .error f ↔ 8 ≤ b.toNat ∧ f = .invalidRegister b := by
  simp only [readReg, bind_eq_error, checkReg_eq_error, pure_eq_ok, reduceCtorEq, and_false, exists_false, or_false]

@[simp] theorem writeReg_regIndex (s : State) (r : Fin 8) (v : Byte) :
    writeReg s (regIndex r) v = .ok (s.setReg r v) := by
  simp [writeReg]

theorem writeReg_invalid (s : State) {b : Byte} (v : Byte) (h : 8 ≤ b.toNat) :
    writeReg s b v = .error (.invalidRegister b) := by
  simp [writeReg, checkReg_invalid h]

theorem writeReg_eq_ok {s t : State} {b v : Byte} :
    writeReg s b v = .ok t ↔ ∃ r, b = regIndex r ∧ t = s.setReg r v := by
  simp only [writeReg, bind_eq_ok, checkReg_eq_ok, pure_eq_ok, Except.ok.injEq, eq_comm (a := t)]

theorem writeReg_eq_error {s : State} {b v : Byte} {f : Fault} :
    writeReg s b v = .error f ↔ 8 ≤ b.toNat ∧ f = .invalidRegister b := by
  simp only [writeReg, bind_eq_error, checkReg_eq_error, pure_eq_ok, reduceCtorEq, and_false, exists_false, or_false]

/-! ### Memory cells -/

theorem byte_lt (b : Byte) : b.toNat < memSize := b.isLt

theorem memRead_ok (s : State) {a : Nat} (h : a < memSize) : memRead s a = .ok (s.byteAt a) := by
  rw [memRead, if_neg (by omega)]

@[simp] theorem memRead_byte (s : State) (b : Byte) : memRead s b.toNat = .ok (s.byteAt b.toNat) :=
  memRead_ok s (byte_lt b)

theorem memRead_outside (s : State) {a : Nat} (h : memSize ≤ a) : memRead s a = .error (.addressingFault a) := by
  rw [memRead, if_pos h]

theorem writeForbidden_eq_true {s : State} {a : Nat} :
    writeForbidden s a = true ↔ memSize ≤ a ∨ (s.cfg.vtProtect = true ∧ vtBase ≤ a) := by
  simp [writeForbidden]

theorem writeForbidden_eq_false {s : State} {a : Nat} :
    writeForbidden s a = false ↔ a < memSize ∧ (s.cfg.vtProtect = true → a < vtBase) := by
  simp [writeForbidden]

theorem writeForbidden_congr {s t : State} (h : t.cfg = s.cfg) (a : Nat) : writeForbidden t a = writeForbidden s a := by
  simp only [writeForbidden, h]

theorem memWrite_ok {s : State} {a : Nat} (v : Byte) (h : writeForbidden s a = false) :
    memWrite s a v = .ok { s with mem := Memory.write s.mem a v } := by
  simp [memWrite, h]

theorem memWrite_forbidden {s : State} {a : Nat} (v : Byte) (h : writeForbidden s a = true) :
    memWrite s a v = .error (.addressingFault a) := by
  simp [memWrite, h]

theorem memWrite_eq_ok {s t : State} {a : Nat} {v : Byte} :
    memWrite s a v = .ok t ↔ writeForbidden s a = false ∧ t = { s with mem := Memory.write s.mem a v } := by
  cases h : writeForbidden s a <;> simp [memWrite, h, eq_comm]

theorem memWrite_eq_error {s : State} {a : Nat} {v : Byte} {f : Fault} :
    memWrite s a v = .error f ↔ writeForbidden s a = true ∧ f = .addressingFault a := by
  cases h : writeForbidden s a <;> simp [memWrite, h, eq_comm]

/-! ### The stack -/

theorem push_ok {s : State} (v : Byte) (h : writeForbidden s (s.sp - 1).toNat = false) :
    push s v = .ok { s.setReg 7 (s.sp - 1) with mem := Memory.write s.mem (s.sp - 1).toNat v } :=
  memWrite_ok v h

theorem push_forbidden {s : State} (v : Byte) (h : writeForbidden s (s.sp - 1).toNat = true) :
    push s v = .error (.addressingFault (s.sp - 1).toNat) :=
  memWrite_forbidden v h

theorem push_eq_ok {s t : State} {v : Byte} :
    push s v = .ok t ↔ writeForbidden s (s.sp - 1).toNat = false ∧
      t = { s.setReg 7 (s.sp - 1) with mem := Memory.write s.mem (s.sp - 1).toNat v } :=
  memWrite_eq_ok

theorem push_eq_error {s : State} {v : Byte} {f : Fault} :
    push s v = .error f ↔ writeForbidden s (s.sp - 1).toNat = true ∧ f = .addressingFault (s.sp - 1).toNat :=
  memWrite_eq_error

theorem pushPc_eq_push {s : State} {t : Nat} (h : t < memSize) : pushPc s t = push s (BitVec.ofNat 8 t) := by
  rw [pushPc, if_neg (by omega)]

theorem pushPc_outside (s : State) {t : Nat} (h : memSize ≤ t) : pushPc s t = .error (.addressingFault t) := by
  rw [pushPc, if_pos h]

theorem pop_ok {s : State} (h : s.sp ≠ spInit) :
    pop s = .ok (s.byteAt s.sp.toNat, s.setReg 7 (s.sp + 1)) := by
  simp only [pop, if_neg h, memRead_byte, ok_bind, pure_eq_ok]

theorem pop_underflow {s : State} (h : s.sp = spInit) : pop s = .error (.stackUnderflow spInit) := by
  simp only [pop, if_pos h]
  rw [h]

theorem pop_eq_ok {s : State} {e : Byte × State} :
    pop s = .ok e ↔ s.sp ≠ spInit ∧ e = (s.byteAt s.sp.toNat, s.setReg 7 (s.sp + 1)) := by
  by_cases h : s.sp = spInit
  · simp [pop_underflow h, h]
  · simp only [pop_ok h, Except.ok.injEq, ne_eq, h, not_false_eq_true, true_and, eq_comm]

theorem pop_eq_error {s : State} {f : Fault} : pop s = .error f ↔ s.sp = spInit ∧ f = .stackUnderflow spInit := by
  by_cases h : s.sp = spInit
  · simp [pop_underflow h, h, eq_comm]
  · simp only [pop_ok h, h, reduceCtorEq, false_and]

end Sys2Proof.Machine
end

