-- ==== Sys2Proof/Laws/Decode.lean ====
section
/-! SUPPORT. The opcode table and the encoder agree row by row; what a decode that succeeds has read. -/

namespace Sys2Proof

/-- The instruction a row builds has that row's opcode (30_encoding.md R86). -/
theorem opcodeTable_build {row : OpcodeRow} (h : row ∈ opcodeTable) (a b : Byte) :
    (row.build a b).opcode = row.opcode := by
  simp only [opcodeTable, List.cons_append, List.nil_append, List.mem_cons, List.not_mem_nil, or_false] at h
  rcases h with rfl | rfl | rfl | rfl | rfl | rfl | rfl | rfl | rfl | rfl | rfl | rfl | rfl | rfl | rfl | rfl | rfl |
    rfl | rfl | rfl | rfl | rfl | rfl | rfl <;> rfl

/-- The instruction a row builds has as many operand bytes as the top two bits of its opcode say
(30_encoding.md R81, R87). -/
theorem opcodeTable_build_operands {row : OpcodeRow} (h : row ∈ opcodeTable) (a b : Byte) :
    (row.build a b).operandBytes.length = operandCount row.opcode := by
  simp only [opcodeTable, List.cons_append, List.nil_append, List.mem_cons, List.not_mem_nil, or_false] at h
  rcases h with rfl | rfl | rfl | rfl | rfl | rfl | rfl | rfl | rfl | rfl | rfl | rfl | rfl | rfl | rfl | rfl | rfl |
    rfl | rfl | rfl | rfl | rfl | rfl | rfl <;> simp [operandCount, Instr.operandBytes]

/-- No two rows share an opcode value (30_encoding.md R87). -/
theorem opcodeTable_opcodes_distinct : opcodeTable.Pairwise fun r q => r.opcode ≠ q.opcode := by decide

theorem findRow_eq_some {ir : Byte} {row : OpcodeRow} (h : findRow ir = some row) :
    row ∈ opcodeTable ∧ row.opcode = ir :=
  ⟨List.mem_of_find?_eq_some h, by simpa using List.find?_some h⟩

theorem findRow_build_length {ir : Byte} {row : OpcodeRow} (h : findRow ir = some row) (a b : Byte) :
    (row.build a b).length = operandCount ir + 1 := by
  obtain ⟨hm, ho⟩ := findRow_eq_some h
  rw [Instr.length, encode, List.length_cons, opcodeTable_build_operands hm, ho]

theorem findRow_build {ir : Byte} {row : OpcodeRow} (h : findRow ir = some row) (a b : Byte) :
    (row.build a b).opcode = ir := by
  obtain ⟨hm, ho⟩ := findRow_eq_some h
  rw [opcodeTable_build hm, ho]

/-- A byte is the opcode of a row exactly when it is the opcode of an instruction. -/
theorem findRow_isSome_opcode (i : Instr) : (findRow i.opcode).isSome = true := by
  cases i <;> rfl

/-- No legal opcode has more than two operand bytes (30_encoding.md R80). -/
theorem operandCount_le {ir : Byte} {row : OpcodeRow} (h : findRow ir = some row) : operandCount ir ≤ 2 := by
  have hl := findRow_build_length h 0 0
  have : (row.build 0 0).length ≤ 3 := by cases row.build 0 0 <;> simp [Instr.length, encode, Instr.operandBytes]
  omega

/-- A decode that succeeds read the instruction's opcode at the front of enough bytes. -/
theorem decode_eq_ok {bs rest : List Byte} {i : Instr} (h : decode bs = .ok (i, rest)) :
    bs.head? = some i.opcode ∧ i.length ≤ bs.length := by
  cases bs with
  | nil => cases h
  | cons ir more =>
    cases hr : findRow ir with
    | none => simp only [decode, hr, reduceCtorEq] at h
    | some row =>
      have hb := findRow_build hr
      have hl := findRow_build_length hr
      have hle := operandCount_le hr
      simp only [decode, hr] at h
      split at h <;> cases h <;> simp only [List.head?_cons, hb, hl, List.length_cons, true_and] <;> omega

/-- An opcode byte that is no row's is rejected whatever follows (30_encoding.md R88). -/
theorem decode_illegal {ir : Byte} {more : List Byte} (h : findRow ir = none) :
    decode (ir :: more) = .error (.illegalOpcode ir) := by
  simp only [decode, h]

/-- What a rejection says of the bytes. -/
theorem decode_eq_error {bs : List Byte} {e : DecodeError} (h : decode bs = .error e) :
    (bs = [] ∧ e = .noOpcode) ∨
      (∃ ir more, bs = ir :: more ∧ findRow ir = none ∧ e = .illegalOpcode ir) ∨
      (∃ ir more row, bs = ir :: more ∧ findRow ir = some row ∧ e = .missingOperand bs.length ∧
        bs.length < operandCount ir + 1) := by
  cases bs with
  | nil => exact .inl ⟨rfl, (Except.error.inj h).symm⟩
  | cons ir more =>
    cases hr : findRow ir with
    | none =>
      rw [decode_illegal hr] at h
      exact .inr (.inl ⟨ir, more, rfl, hr, (Except.error.inj h).symm⟩)
    | some row =>
      refine .inr (.inr ⟨ir, more, row, rfl, hr, ?_⟩)
      have hle := operandCount_le hr
      simp only [decode, hr] at h
      split at h <;> cases h <;> simp only [List.length_cons, List.length_nil, true_and] <;> omega

end Sys2Proof
end

