-- ==== Sys2Proof/Laws/Stack.lean ====
section
/-! SUPPORT. Several pushes in a row, the interrupt frame saved and restored, the taking of an interrupt: what each
does when it completes, and what it raises when it does not. -/

namespace Sys2Proof.Machine

theorem State.setReg_setReg (s : State) (r : Fin 8) (v w : Byte) : (s.setReg r v).setReg r w = s.setReg r w := by
  simp [State.setReg, Vector.set_set]

theorem State.setReg_self (s : State) (r : Fin 8) : s.setReg r (s.reg r) = s := by
  simp [State.setReg, State.reg]

/-- The cell that the `k`-th of several pushes writes. -/
def pushCell (sp : Byte) (k : Nat) : Nat := (sp - 1 - BitVec.ofNat 8 k).toNat

theorem pushCell_zero (sp : Byte) : pushCell sp 0 = (sp - 1).toNat := by simp [pushCell]

theorem pushCell_succ (sp : Byte) (k : Nat) : pushCell sp (k + 1) = pushCell (sp - 1) k := by
  simp only [pushCell, BitVec.ofNat_add]
  congr 1
  generalize BitVec.ofNat 8 k = x
  change sp - 1 - (x + 1) = sp - 1 - 1 - x
  bv_omega

theorem pushCell_lt (sp : Byte) (k : Nat) : pushCell sp k < memSize := byte_lt _

theorem pushCell_injective (sp : Byte) {j k : Nat} (hj : j < 256) (hk : k < 256) (h : pushCell sp j = pushCell sp k) :
    j = k := by
  have h1 := BitVec.eq_of_toNat_eq h
  have hx : BitVec.ofNat 8 j = BitVec.ofNat 8 k := by
    generalize BitVec.ofNat 8 j = x at *
    generalize BitVec.ofNat 8 k = y at *
    bv_omega
  have := congrArg BitVec.toNat hx
  simp only [BitVec.toNat_ofNat] at this
  omega

/-- What pushing several bytes has done: SP is lower by their number, each byte stands in its cell, and nothing
else differs. -/
structure Pushed (s t : State) (vs : List Byte) : Prop where
  shape : t = { s.setReg 7 (s.sp - BitVec.ofNat 8 vs.length) with mem := t.mem }
  wf : Memory.wf t.mem
  cells : ∀ k (h : k < vs.length), t.byteAt (pushCell s.sp k) = vs[k]
  others : ∀ a, (∀ k, k < vs.length → a ≠ pushCell s.sp k) → t.byteAt a = s.byteAt a

/-- Several pushes complete when every cell they write may be written. -/
theorem pushAll_ok {s : State} {vs : List Byte} (hm : Memory.wf s.mem) (hlen : vs.length ≤ 256)
    (h : ∀ k, k < vs.length → writeForbidden s (pushCell s.sp k) = false) :
    ∃ t, pushAll s vs = .ok t ∧ Pushed s t vs := by
  induction vs generalizing s with
  | nil =>
    refine ⟨s, rfl, ?_, hm, by simp, fun a _ => rfl⟩
    have h0 : s.sp - BitVec.ofNat 8 0 = s.sp := by simp
    simp only [List.length_nil, h0]
    rw [State.setReg_self]
  | cons v vs ih =>
    have h0 := h 0 (by simp)
    rw [pushCell_zero] at h0
    let u : State := { s.setReg 7 (s.sp - 1) with mem := Memory.write s.mem (s.sp - 1).toNat v }
    have hu : push s v = .ok u := push_ok v h0
    have husp : u.sp = s.sp - 1 := State.setReg_reg_same s 7 _
    have huw : Memory.wf u.mem := Memory.write_wf v hm (byte_lt _)
    simp only [List.length_cons] at hlen
    obtain ⟨t, ht, hp⟩ := ih (s := u) huw (by omega) fun k hk => by
      rw [writeForbidden_congr (s := s) (t := u) rfl, husp, ← pushCell_succ]
      exact h (k + 1) (by simpa using hk)
    have hrest : ∀ a, (∀ k, k < vs.length → a ≠ pushCell s.sp (k + 1)) →
        t.byteAt a = if a = (s.sp - 1).toNat then v else s.byteAt a := fun a ha => by
      rw [hp.others a fun k hk => by rw [husp, ← pushCell_succ]; exact ha k hk]
      exact Memory.read_write hm _ _ _
    refine ⟨t, by simp only [pushAll, hu, ok_bind, ht], ?_, hp.wf, ?_, ?_⟩
    · have hsp : s.sp - 1 - BitVec.ofNat 8 vs.length = s.sp - BitVec.ofNat 8 (vs.length + 1) := by
        rw [BitVec.ofNat_add]
        generalize BitVec.ofNat 8 vs.length = x
        change s.sp - 1 - x = s.sp - (x + 1)
        generalize s.sp = y
        bv_omega
      have := hp.shape
      rw [husp, hsp] at this
      rw [this, List.length_cons]
      simp [u, State.setReg, Vector.set_set]
    · intro k hk
      cases k with
      | zero =>
        rw [pushCell_zero, hrest _ fun k hk' => ?_]
        · simp
        · rw [← pushCell_zero]
          intro he
          have := pushCell_injective _ (by omega) (by omega) he
          omega
      | succ k =>
        rw [pushCell_succ, ← husp]
        simpa using hp.cells k (by simpa using hk)
    · intro a ha
      rw [hrest a fun k hk => ha (k + 1) (by simpa using hk), if_neg]
      rw [← pushCell_zero]
      exact ha 0 (by simp)

/-- Several pushes raise the fault of the first cell that may not be written. -/
theorem pushAll_error {s : State} {vs : List Byte} {j : Nat} (hj : j < vs.length)
    (h : ∀ k, k < j → writeForbidden s (pushCell s.sp k) = false)
    (hf : writeForbidden s (pushCell s.sp j) = true) :
    pushAll s vs = .error (.addressingFault (pushCell s.sp j)) := by
  induction vs generalizing s j with
  | nil => simp at hj
  | cons v vs ih =>
    cases j with
    | zero =>
      rw [pushCell_zero] at hf ⊢
      simp only [pushAll, push_forbidden v hf, error_bind]
    | succ j =>
      have h0 := h 0 (by omega)
      rw [pushCell_zero] at h0
      let u : State := { s.setReg 7 (s.sp - 1) with mem := Memory.write s.mem (s.sp - 1).toNat v }
      have hu : push s v = .ok u := push_ok v h0
      have husp : u.sp = s.sp - 1 := State.setReg_reg_same s 7 _
      have hc : ∀ k, writeForbidden u (pushCell u.sp k) = writeForbidden s (pushCell s.sp (k + 1)) := fun k => by
        rw [writeForbidden_congr (s := s) (t := u) rfl, husp, ← pushCell_succ]
      simp only [pushAll, hu, ok_bind]
      rw [ih (s := u) (j := j) (by simpa using hj) (fun k hk => by rw [hc]; exact h (k + 1) (by omega))
        (by rw [hc]; exact hf), husp, ← pushCell_succ]

/-- The pushes raise nothing but the fault of a cell that may not be written. -/
theorem pushAll_eq_error {s : State} {vs : List Byte} {f : Fault} (h : pushAll s vs = .error f) :
    ∃ a, writeForbidden s a = true ∧ f = .addressingFault a := by
  induction vs generalizing s with
  | nil => cases h
  | cons v vs ih =>
    simp only [pushAll, bind_eq_error] at h
    rcases h with h | ⟨u, hu, h⟩
    · exact ⟨_, push_eq_error.mp h⟩
    · obtain ⟨a, ha, hf⟩ := ih h
      have hcfg : u.cfg = s.cfg := by rw [(push_eq_ok.mp hu).2]; rfl
      exact ⟨a, by rwa [writeForbidden_congr hcfg] at ha, hf⟩

/-- When several pushes complete, every cell they wrote could be written. -/
theorem pushAll_eq_ok {s t : State} {vs : List Byte} (hm : Memory.wf s.mem) (hlen : vs.length ≤ 256)
    (h : pushAll s vs = .ok t) :
    Pushed s t vs ∧ ∀ k, k < vs.length → writeForbidden s (pushCell s.sp k) = false := by
  have hall : ∀ k, k < vs.length → writeForbidden s (pushCell s.sp k) = false := by
    by_contra hne
    have hne' : ∃ k, k < vs.length ∧ writeForbidden s (pushCell s.sp k) = true := by
      by_contra hno
      refine hne fun k hk => ?_
      cases hw : writeForbidden s (pushCell s.sp k) with
      | false => rfl
      | true => exact absurd ⟨k, hk, hw⟩ hno
    classical
    have hspec := Nat.find_spec hne'
    have hmin : ∀ k, k < Nat.find hne' → writeForbidden s (pushCell s.sp k) = false := fun k hk => by
      have := Nat.find_min hne' hk
      cases hw : writeForbidden s (pushCell s.sp k) with
      | false => rfl
      | true => exact absurd ⟨Nat.lt_trans hk hspec.1, hw⟩ this
    rw [pushAll_error hspec.1 hmin hspec.2] at h
    cases h
  obtain ⟨u, hu, hp⟩ := pushAll_ok hm hlen hall
  rw [hu] at h
  cases h
  exact ⟨hp, hall⟩

/-! ### The interrupt frame -/

/-- The eight bytes of the interrupt frame, in the order they are pushed (20_memory.md R65). -/
def frameBytes (s : State) : List Byte :=
  [BitVec.ofNat 8 s.pc, s.fl, s.reg 0, s.reg 1, s.reg 2, s.reg 3, s.reg 4, s.reg 5]

theorem frameBytes_length (s : State) : (frameBytes s).length = 8 := rfl

theorem saveFrame_eq_pushAll {s : State} (h : s.pc < memSize) : saveFrame s = pushAll s (frameBytes s) := by
  simp only [saveFrame, pushPc_eq_push h, frameBytes, pushAll]

theorem saveFrame_outside {s : State} (h : memSize ≤ s.pc) : saveFrame s = .error (.addressingFault s.pc) := by
  simp only [saveFrame, pushPc_outside s h, error_bind]

/-- The state an interrupt entry on line `n` saves its frame from: interrupts disabled, the line's pending bit
cleared (60_exceptions.md R202). -/
def entryStart (s : State) (n : Line) : State :=
  { s with ie := false }.setReg 6 (s.intStatus &&& (255 - lineBit n))

theorem entryStart_sp (s : State) (n : Line) : (entryStart s n).sp = s.sp :=
  State.setReg_reg_other _ _ (by decide)

theorem entryStart_frameBytes (s : State) (n : Line) : frameBytes (entryStart s n) = frameBytes s := by
  have hr : ∀ r : Fin 8, r ≠ 6 → (entryStart s n).reg r = s.reg r := fun r h =>
    State.setReg_reg_other { s with ie := false } _ h
  simp only [frameBytes, hr 0 (by decide), hr 1 (by decide), hr 2 (by decide), hr 3 (by decide), hr 4 (by decide),
    hr 5 (by decide)]
  rfl

theorem vector_lt (n : Line) : vtBase + n.val < memSize := by
  have := n.isLt
  show 248 + n.val < 256
  omega

/-- An interrupt entry is the frame saved, then the vector read. -/
theorem interruptEntry_eq (s : State) (n : Line) :
    interruptEntry s n =
      (saveFrame (entryStart s n) >>= fun t => .ok { t with pc := (t.byteAt (vtBase + n.val)).toNat }) := by
  simp only [interruptEntry, entryStart, memRead_ok _ (vector_lt n), ok_bind, pure_eq_ok]

/-- An interrupt entry that completes has saved the eight bytes and goes to the vector. -/
theorem interruptEntry_eq_ok {s t : State} {n : Line} (hm : Memory.wf s.mem) (h : interruptEntry s n = .ok t) :
    s.pc < memSize ∧ (∀ k, k < 8 → writeForbidden s (pushCell s.sp k) = false) ∧
      ∃ u, Pushed (entryStart s n) u (frameBytes s) ∧ t = { u with pc := (u.byteAt (vtBase + n.val)).toNat } := by
  rw [interruptEntry_eq, bind_eq_ok] at h
  obtain ⟨u, hu, ht⟩ := h
  rcases Nat.lt_or_ge s.pc memSize with hpc | hpc
  · rw [saveFrame_eq_pushAll (s := entryStart s n) hpc, entryStart_frameBytes] at hu
    obtain ⟨hp, hw⟩ := pushAll_eq_ok (s := entryStart s n) hm (by rw [frameBytes_length]; omega) hu
    refine ⟨hpc, fun k hk => ?_, u, hp, (Except.ok.inj ht).symm⟩
    have := hw k (by rwa [frameBytes_length])
    rwa [entryStart_sp, writeForbidden_congr (s := s) (t := entryStart s n) rfl] at this
  · rw [saveFrame_outside (s := entryStart s n) hpc] at hu
    cases hu

/-- An interrupt entry completes when `pc` fits a cell and the eight cells of the frame may be written. -/
theorem interruptEntry_ok {s : State} {n : Line} (hm : Memory.wf s.mem) (hpc : s.pc < memSize)
    (hw : ∀ k, k < 8 → writeForbidden s (pushCell s.sp k) = false) :
    ∃ u, Pushed (entryStart s n) u (frameBytes s) ∧
      interruptEntry s n = .ok { u with pc := (u.byteAt (vtBase + n.val)).toNat } := by
  obtain ⟨u, hu, hp⟩ := pushAll_ok (s := entryStart s n) (vs := frameBytes s) hm (by rw [frameBytes_length]; omega)
    fun k hk => by
      rw [entryStart_sp, writeForbidden_congr (s := s) (t := entryStart s n) rfl]
      exact hw k (by rwa [frameBytes_length] at hk)
  refine ⟨u, hp, ?_⟩
  rw [interruptEntry_eq, saveFrame_eq_pushAll (s := entryStart s n) hpc, entryStart_frameBytes, hu, ok_bind]

theorem interruptEntry_outside {s : State} (n : Line) (h : memSize ≤ s.pc) :
    interruptEntry s n = .error (.addressingFault s.pc) := by
  rw [interruptEntry_eq, saveFrame_outside (s := entryStart s n) h]
  rfl

theorem interruptEntry_forbidden {s : State} {n : Line} {j : Nat} (hpc : s.pc < memSize) (hj : j < 8)
    (h : ∀ k, k < j → writeForbidden s (pushCell s.sp k) = false)
    (hf : writeForbidden s (pushCell s.sp j) = true) :
    interruptEntry s n = .error (.addressingFault (pushCell s.sp j)) := by
  have hc : ∀ k, writeForbidden (entryStart s n) (pushCell (entryStart s n).sp k) =
      writeForbidden s (pushCell s.sp k) := fun k => by
    rw [entryStart_sp, writeForbidden_congr (s := s) (t := entryStart s n) rfl]
  rw [interruptEntry_eq, saveFrame_eq_pushAll (s := entryStart s n) hpc,
    pushAll_error (j := j) (by rwa [frameBytes_length]) (fun k hk => by rw [hc]; exact h k hk) (by rw [hc]; exact hf), entryStart_sp]
  rfl

/-- An interrupt entry raises nothing but an AddressingFault: of `pc`, or of a cell it may not write. -/
theorem interruptEntry_eq_error {s : State} {n : Line} {f : Fault} (h : interruptEntry s n = .error f) :
    ∃ a, writeForbidden s a = true ∧ f = .addressingFault a := by
  rw [interruptEntry_eq, bind_eq_error] at h
  rcases h with h | ⟨u, -, h⟩
  · rcases Nat.lt_or_ge s.pc memSize with hpc | hpc
    · rw [saveFrame_eq_pushAll (s := entryStart s n) hpc] at h
      exact pushAll_eq_error (s := entryStart s n) h
    · rw [saveFrame_outside (s := entryStart s n) hpc] at h
      exact ⟨s.pc, writeForbidden_eq_true.mpr (.inl hpc), (Except.error.inj h).symm⟩
  · cases h

/-! ### The return from an interrupt -/

theorem popInto_ok {s : State} (r : Fin 8) (h : s.sp ≠ spInit) :
    popInto s r = .ok ((s.setReg 7 (s.sp + 1)).setReg r (s.byteAt s.sp.toNat)) := by
  simp only [popInto, pop_ok h, ok_bind, pure_eq_ok]

theorem popInto_underflow {s : State} (r : Fin 8) (h : s.sp = spInit) :
    popInto s r = .error (.stackUnderflow spInit) := by
  simp only [popInto, pop_underflow h, error_bind]

theorem popInto_eq_ok {s t : State} {r : Fin 8} (h : popInto s r = .ok t) :
    s.sp ≠ spInit ∧ t = (s.setReg 7 (s.sp + 1)).setReg r (s.byteAt s.sp.toNat) := by
  by_cases hs : s.sp = spInit
  · rw [popInto_underflow r hs] at h
    cases h
  · rw [popInto_ok r hs] at h
    exact ⟨hs, (Except.ok.inj h).symm⟩

theorem popInto_eq_error {s : State} {r : Fin 8} {f : Fault} (h : popInto s r = .error f) :
    f = .stackUnderflow spInit := by
  by_cases hs : s.sp = spInit
  · rw [popInto_underflow r hs] at h
    exact (Except.error.inj h).symm
  · rw [popInto_ok r hs] at h
    cases h

/-- The pops raise nothing but StackUnderflow, when one of them meets SP 244. -/
theorem popRegs_eq_error {s : State} {rs : List (Fin 8)} {f : Fault} (h : popRegs s rs = .error f) :
    f = .stackUnderflow spInit := by
  induction rs generalizing s with
  | nil => cases h
  | cons r rs ih =>
    simp only [popRegs, bind_eq_error] at h
    rcases h with h | ⟨t, -, h⟩
    · exact popInto_eq_error h
    · exact ih h

/-- What popping into several registers has done: SP is higher by their number, each register holds its cell, and
nothing else differs. -/
structure PoppedRegs (s t : State) (rs : List (Fin 8)) : Prop where
  shape : t = { s with regs := t.regs }
  sp : t.sp = s.sp + BitVec.ofNat 8 rs.length
  popped : ∀ k (h : k < rs.length), t.reg rs[k] = s.byteAt (s.sp + BitVec.ofNat 8 k).toNat
  others : ∀ r, r ≠ 7 → r ∉ rs → t.reg r = s.reg r

/-- Popping into different registers other than SP completes exactly when no pop meets SP 244. -/
theorem popRegs_eq_ok {s t : State} {rs : List (Fin 8)} (hn : rs.Nodup) (h7 : (7 : Fin 8) ∉ rs)
    (h : popRegs s rs = .ok t) :
    PoppedRegs s t rs ∧ ∀ k, k < rs.length → s.sp + BitVec.ofNat 8 k ≠ spInit := by
  induction rs generalizing s with
  | nil =>
    cases h
    refine ⟨⟨rfl, by simp, by simp, fun _ _ _ => rfl⟩, by simp⟩
  | cons r rs ih =>
    simp only [popRegs, bind_eq_ok] at h
    obtain ⟨u, hu, h⟩ := h
    obtain ⟨hs, rfl⟩ := popInto_eq_ok hu
    obtain ⟨hr, hn⟩ := List.nodup_cons.mp hn
    obtain ⟨hr7, h7⟩ : (7 : Fin 8) ≠ r ∧ (7 : Fin 8) ∉ rs := by simpa using h7
    obtain ⟨hp, hsp⟩ := ih hn h7 h
    generalize hu' : (s.setReg 7 (s.sp + 1)).setReg r (s.byteAt s.sp.toNat) = u at *
    have usp : u.sp = s.sp + 1 := by
      rw [← hu']
      simp only [State.sp, State.setReg_reg_other _ _ hr7, State.setReg_reg_same]
    have ub : ∀ a, u.byteAt a = s.byteAt a := fun a => by rw [← hu']; rfl
    have step : ∀ k, u.sp + BitVec.ofNat 8 k = s.sp + BitVec.ofNat 8 (k + 1) := fun k => by
      rw [usp, BitVec.ofNat_add]
      generalize BitVec.ofNat 8 k = x
      change s.sp + 1 + x = s.sp + (x + 1)
      generalize s.sp = y
      bv_omega
    refine ⟨⟨?_, ?_, ?_, ?_⟩, ?_⟩
    · rw [hp.shape, ← hu']
      rfl
    · rw [hp.sp, step, List.length_cons]
    · intro k hk
      cases k with
      | zero =>
        have h1 : t.reg r = u.reg r := hp.others r hr7.symm hr
        rw [List.getElem_cons_zero, h1, ← hu', State.setReg_reg_same]
        simp
      | succ k =>
        rw [List.getElem_cons_succ, hp.popped k (by simpa using hk), ub, step]
    · intro q hq hq'
      obtain ⟨hqr, hqs⟩ : q ≠ r ∧ q ∉ rs := by simpa using hq'
      rw [hp.others q hq hqs, ← hu', State.setReg_reg_other _ _ hqr, State.setReg_reg_other _ _ hq]
    · intro k hk
      cases k with
      | zero => simpa using hs
      | succ k =>
        rw [← step]
        exact hsp k (by simpa using hk)

/-- The state after a byte is popped into FL. -/
def flagsPopped (s : State) : State := { s.setReg 7 (s.sp + 1) with fl := s.byteAt s.sp.toNat }

theorem popFlags_ok {s : State} (h : s.sp ≠ spInit) : popFlags s = .ok (flagsPopped s) := by
  simp only [popFlags, pop_ok h, ok_bind, pure_eq_ok, flagsPopped]

theorem popFlags_eq_ok {s t : State} (h : popFlags s = .ok t) : s.sp ≠ spInit ∧ t = flagsPopped s := by
  by_cases hs : s.sp = spInit
  · rw [popFlags, pop_underflow hs] at h
    cases h
  · rw [popFlags_ok hs] at h
    exact ⟨hs, (Except.ok.inj h).symm⟩

theorem popFlags_eq_error {s : State} {f : Fault} (h : popFlags s = .error f) : f = .stackUnderflow spInit := by
  by_cases hs : s.sp = spInit
  · rw [popFlags, pop_underflow hs] at h
    exact (Except.error.inj h).symm
  · rw [popFlags_ok hs] at h
    cases h

theorem flagsPopped_sp (s : State) : (flagsPopped s).sp = s.sp + 1 := State.setReg_reg_same s 7 _

theorem flagsPopped_reg (s : State) {r : Fin 8} (h : r ≠ 7) : (flagsPopped s).reg r = s.reg r :=
  State.setReg_reg_other s _ h

/-- What the restore of an interrupt frame has done (45_call_return.md R163). -/
structure Restored (s t : State) : Prop where
  shape : t = { s with regs := t.regs, fl := s.byteAt (s.sp + 6).toNat, ie := true }
  sp : t.sp = s.sp + 8
  status : t.reg 6 = s.reg 6
  popped : ∀ k (h : k < 6), t.reg ([5, 4, 3, 2, 1, 0] : List (Fin 8))[k] = s.byteAt (s.sp + BitVec.ofNat 8 k).toNat

/-- The restore completes exactly when none of the eight pops meets SP 244. -/
theorem restoreFrame_eq_ok {s : State} {e : Byte × State} (h : restoreFrame s = .ok e) :
    (∀ k, k < 8 → s.sp + BitVec.ofNat 8 k ≠ spInit) ∧ e.1 = s.byteAt (s.sp + 7).toNat ∧ Restored s e.2 := by
  simp only [restoreFrame, bind_eq_ok] at h
  obtain ⟨t, ht, u, hu, ⟨pc, w⟩, hw, h⟩ := h
  obtain ⟨hp, hsp⟩ := popRegs_eq_ok (by decide) (by decide) ht
  obtain ⟨hs6, rfl⟩ := popFlags_eq_ok hu
  obtain ⟨hs7, hw⟩ := pop_eq_ok.mp hw
  have tsp : t.sp = s.sp + 6 := hp.sp
  have tb : ∀ a, t.byteAt a = s.byteAt a := fun a => by rw [hp.shape]; rfl
  have usp : (flagsPopped t).sp = s.sp + 7 := by
    rw [flagsPopped_sp, tsp, BitVec.add_assoc]
    rfl
  rw [usp] at hs7 hw
  obtain ⟨rfl, rfl⟩ := Prod.mk.inj hw
  cases h
  refine ⟨fun k hk => ?_, tb _, ?_, ?_, ?_, ?_⟩
  · rcases Nat.lt_or_ge k 6 with h6 | h6
    · exact hsp k h6
    · obtain rfl | rfl : k = 6 ∨ k = 7 := by omega
      · have h6' : s.sp + BitVec.ofNat 8 6 = t.sp := tsp.symm
        rw [h6']
        exact hs6
      · exact hs7
  · have hfl : (flagsPopped t).fl = s.byteAt (s.sp + 6).toNat := by
      show t.byteAt t.sp.toNat = _
      rw [tb, tsp]
    rw [← hfl]
    simp only [State.setReg, flagsPopped]
    rw [hp.shape]
  · show ((flagsPopped t).setReg 7 (s.sp + 7 + 1)).reg 7 = s.sp + 8
    rw [State.setReg_reg_same, BitVec.add_assoc]
    rfl
  · show ((flagsPopped t).setReg 7 (s.sp + 7 + 1)).reg 6 = s.reg 6
    rw [State.setReg_reg_other _ _ (by decide), flagsPopped_reg _ (by decide), hp.others 6 (by decide) (by decide)]
  · intro k hk
    have hne : ([5, 4, 3, 2, 1, 0] : List (Fin 8))[k] ≠ 7 := fun he =>
      absurd (he ▸ List.getElem_mem (l := ([5, 4, 3, 2, 1, 0] : List (Fin 8))) hk) (by decide)
    show ((flagsPopped t).setReg 7 (s.sp + 7 + 1)).reg _ = _
    rw [State.setReg_reg_other _ _ hne, flagsPopped_reg _ hne, hp.popped k hk]

/-- The restore raises nothing but StackUnderflow. -/
theorem restoreFrame_eq_error {s : State} {f : Fault} (h : restoreFrame s = .error f) :
    f = .stackUnderflow spInit := by
  simp only [restoreFrame, bind_eq_error] at h
  rcases h with h | ⟨_, -, h | ⟨_, -, h | ⟨_, -, h⟩⟩⟩
  · exact popRegs_eq_error h
  · exact popFlags_eq_error h
  · exact (pop_eq_error.mp h).2
  · cases h

/-- A pop that meets SP 244 makes the restore raise StackUnderflow. -/
theorem restoreFrame_underflow {s : State} {k : Nat} (hk : k < 8) (h : s.sp + BitVec.ofNat 8 k = spInit) :
    restoreFrame s = .error (.stackUnderflow spInit) := by
  cases hr : restoreFrame s with
  | error f => rw [restoreFrame_eq_error hr]
  | ok e => exact absurd h ((restoreFrame_eq_ok hr).1 k hk)

/-- Popping into registers completes when no pop meets SP 244. -/
theorem popRegs_ok {s : State} {rs : List (Fin 8)} (h7 : (7 : Fin 8) ∉ rs)
    (h : ∀ k, k < rs.length → s.sp + BitVec.ofNat 8 k ≠ spInit) : ∃ t, popRegs s rs = .ok t := by
  induction rs generalizing s with
  | nil => exact ⟨s, rfl⟩
  | cons r rs ih =>
    obtain ⟨hr7, h7⟩ : (7 : Fin 8) ≠ r ∧ (7 : Fin 8) ∉ rs := by simpa using h7
    have hs : s.sp ≠ spInit := by simpa using h 0 (by simp)
    simp only [popRegs, popInto_ok r hs, ok_bind]
    refine ih h7 fun k hk => ?_
    have usp : ((s.setReg 7 (s.sp + 1)).setReg r (s.byteAt s.sp.toNat)).sp = s.sp + 1 := by
      simp only [State.sp, State.setReg_reg_other _ _ hr7, State.setReg_reg_same]
    have hk' := h (k + 1) (by simpa using hk)
    rw [usp]
    rw [BitVec.ofNat_add] at hk'
    generalize BitVec.ofNat 8 k = x at *
    generalize s.sp = y at *
    intro he
    apply hk'
    change y + (x + 1) = 244
    change y + 1 + x = 244 at he
    bv_omega

/-- The restore completes when none of the eight pops meets SP 244. -/
theorem restoreFrame_ok {s : State} (h : ∀ k, k < 8 → s.sp + BitVec.ofNat 8 k ≠ spInit) :
    ∃ t, restoreFrame s = .ok (s.byteAt (s.sp + 7).toNat, t) ∧ Restored s t := by
  obtain ⟨t, ht⟩ := popRegs_ok (s := s) (rs := [5, 4, 3, 2, 1, 0]) (by decide)
    fun k hk => h k (Nat.lt_of_lt_of_le hk (by decide))
  obtain ⟨hp, -⟩ := popRegs_eq_ok (by decide) (by decide) ht
  have tsp : t.sp = s.sp + 6 := hp.sp
  have h6 : t.sp ≠ spInit := by rw [tsp]; exact h 6 (by decide)
  have usp : (flagsPopped t).sp = s.sp + 7 := by
    rw [flagsPopped_sp, tsp, BitVec.add_assoc]
    rfl
  cases hr : restoreFrame s with
  | error f =>
    simp only [restoreFrame, ht, ok_bind, popFlags_ok h6] at hr
    rw [pop_ok (by rw [usp]; exact h 7 (by decide))] at hr
    cases hr
  | ok e =>
    obtain ⟨-, he, hres⟩ := restoreFrame_eq_ok hr
    exact ⟨e.2, by rw [← he], hres⟩

end Sys2Proof.Machine
end

