-- ==== Sys2Proof/Laws/Exec.lean ====
section
/-! SUPPORT. What an instruction can do, said once for all of them: it completes with the effects of `Completed`, or
it is undone with a fault that the state shows. -/

namespace Sys2Proof.Machine

/-! ### Flags and the ALU -/

/-- The compare clears no bit of FL (41_arithmetic.md R124). -/
theorem compareFlags_keeps (fl va vb : Byte) {k : Nat} (h : fl.getLsbD k = true) :
    (compareFlags fl va vb).getLsbD k = true := by
  simp only [compareFlags]
  split
  · simp [h]
  · split <;> simp [h]

/-- An ALU operation that completes wrote one register, or FL by the compare. -/
theorem aluApply_eq_ok {op : AluOp} {dest : Byte} {src : AluSource} {s t : State} (h : aluApply op dest src s = .ok t) :
    (∃ r v, t = s.setReg r v) ∨ ∃ va vb, t = { s with fl := compareFlags s.fl va vb } := by
  simp only [aluApply, bind_eq_ok] at h
  obtain ⟨va, -, vb, -, h⟩ := h
  have w : ∀ {v : Byte}, writeReg s dest v = .ok t → ∃ r v, t = s.setReg r v := fun {v} h =>
    have ⟨r, _, ht⟩ := writeReg_eq_ok.mp h
    ⟨r, v, ht⟩
  cases op <;> simp only at h
  case modulo =>
    split at h
    · cases h
    · exact .inl (w h)
  case compare => exact .inr ⟨va, vb, (Except.ok.inj h).symm⟩
  all_goals exact .inl (w h)

theorem readSource_eq_error {s : State} {src : AluSource} {f : Fault} (h : readSource s src = .error f) :
    ∃ b : Byte, 8 ≤ b.toNat ∧ f = .invalidRegister b := by
  cases src with
  | register b => exact ⟨b, readReg_eq_error.mp h⟩
  | immediate v => cases h
  | unary => cases h

/-- An ALU operation raises InvalidRegister, or DivisionByZero (41_arithmetic.md R120). -/
theorem aluApply_eq_error {op : AluOp} {dest : Byte} {src : AluSource} {s : State} {f : Fault}
    (h : aluApply op dest src s = .error f) :
    (∃ b : Byte, 8 ≤ b.toNat ∧ f = .invalidRegister b) ∨ f = .divisionByZero s.pc := by
  simp only [aluApply, bind_eq_error] at h
  rcases h with h | ⟨va, hva, h | ⟨vb, -, h⟩⟩
  · exact .inl ⟨dest, readReg_eq_error.mp h⟩
  · exact .inl (readSource_eq_error h)
  · have w : ∀ {v : Byte}, writeReg s dest v = .error f → ∃ b : Byte, 8 ≤ b.toNat ∧ f = .invalidRegister b :=
      fun h => ⟨dest, writeReg_eq_error.mp h⟩
    cases op <;> simp only at h
    case modulo =>
      split at h
      · exact .inr (Except.error.inj h).symm
      · exact .inl (w h)
    case compare => cases h
    all_goals exact .inl (w h)

/-! ### What an instruction that completes has done -/

/-- The instructions that write memory (20_memory.md R51). -/
def storesToMemory : Instr → Bool
  | .st _ _ | .push _ | .call _ => true
  | .ldi _ _ | .prn _ | .hlt | .mul _ _ | .add _ _ | .pop _ | .jmp _ | .pra _ | .ld _ _ | .ret | .iret | .cmp _ _
  | .jeq _ | .jne _ | .and _ _ | .or _ _ | .xor _ _ | .not _ | .shl _ _ | .shr _ _ | .mod _ _ => false

/-- The effects every completed instruction keeps to. -/
structure Completed (i : Instr) (s t : State) : Prop where
  cfg : t.cfg = s.cfg
  progTop : t.progTop = s.progTop
  timerFired : t.timerFired = s.timerFired
  inputFired : t.inputFired = s.inputFired
  stopRequested : t.stopRequested = s.stopRequested
  status : t.status = if i = .hlt then .halted else s.status
  ie : t.ie = if i = .iret then true else s.ie
  fl : i ≠ .iret → ∀ k, s.fl.getLsbD k = true → t.fl.getLsbD k = true
  mem : t.mem = s.mem ∨
    (storesToMemory i = true ∧ ∃ a v, writeForbidden s a = false ∧ t.mem = Memory.write s.mem a v)
  out : ∃ es, t.out = s.out ++ es
  pc : t.pc = s.pc + i.length ∨ (setsPcOpcode i.opcode = true ∧ t.pc < memSize)

/-- What the handler of an instruction made of the state, and its control action. -/
structure HandlerEffect (i : Instr) (s u : State) (c : ControlAction) : Prop where
  shape : u = { s with regs := u.regs, fl := u.fl, mem := u.mem, ie := u.ie, out := u.out }
  ie : u.ie = if i = .iret then true else s.ie
  fl : i ≠ .iret → ∀ k, s.fl.getLsbD k = true → u.fl.getLsbD k = true
  mem : u.mem = s.mem ∨
    (storesToMemory i = true ∧ ∃ a v, writeForbidden s a = false ∧ u.mem = Memory.write s.mem a v)
  out : ∃ es, u.out = s.out ++ es
  control : (c = .advance i.length ∧ i ≠ .hlt) ∨
    (∃ t, c = .jumpTo t ∧ setsPcOpcode i.opcode = true ∧ i ≠ .hlt) ∨ (c = .halt ∧ i = .hlt)

theorem completed_of_effect {i : Instr} {s u : State} {c : ControlAction} (h : HandlerEffect i s u c) :
    Completed i s (applyControl u c) where
  cfg := by rw [applyControl_cfg, h.shape]
  progTop := by rw [applyControl_progTop, h.shape]
  timerFired := by rw [applyControl_timerFired, h.shape]
  inputFired := by rw [applyControl_inputFired, h.shape]
  stopRequested := by rw [applyControl_stopRequested, h.shape]
  status := by
    rcases h.control with ⟨rfl, hi⟩ | ⟨t, rfl, -, hi⟩ | ⟨rfl, rfl⟩
    · rw [applyControl_advance_status, if_neg hi, h.shape]
    · rw [applyControl_jumpTo_status, if_neg hi, h.shape]
    · rfl
  ie := by rw [applyControl_ie, h.ie]
  fl := by rw [applyControl_fl]; exact h.fl
  mem := by rw [applyControl_mem]; exact h.mem
  out := by rw [applyControl_out]; exact h.out
  pc := by
    have hpc : u.pc = s.pc := by rw [h.shape]
    rcases h.control with ⟨rfl, -⟩ | ⟨t, rfl, hs, -⟩ | ⟨rfl, rfl⟩
    · exact .inl (by rw [applyControl_advance_pc, hpc])
    · exact .inr ⟨hs, byte_lt t⟩
    · exact .inl (by rw [applyControl_halt_pc, hpc]; rfl)

/-- A handler that changes registers, FL and memory as `h` says, and nothing else. -/
theorem effect_of {i : Instr} {s u : State} {c : ControlAction} (hi : i ≠ .iret)
    (hshape : u = { s with regs := u.regs, fl := u.fl, mem := u.mem })
    (hfl : ∀ k, s.fl.getLsbD k = true → u.fl.getLsbD k = true)
    (hmem : u.mem = s.mem ∨
      (storesToMemory i = true ∧ ∃ a v, writeForbidden s a = false ∧ u.mem = Memory.write s.mem a v))
    (hc : (c = .advance i.length ∧ i ≠ .hlt) ∨
      (∃ t, c = .jumpTo t ∧ setsPcOpcode i.opcode = true ∧ i ≠ .hlt) ∨ (c = .halt ∧ i = .hlt)) :
    HandlerEffect i s u c where
  shape := by rw [hshape]
  ie := by rw [if_neg hi, hshape]
  fl := fun _ => hfl
  mem := hmem
  out := ⟨[], by rw [hshape]; simp⟩
  control := hc

/-- The two ways an instruction ends, from what its handler gives and what it raises. -/
theorem complete_effect {i : Instr} {s t : State} {r : HandlerResult} (h : complete s r = .next t)
    (hok : ∀ u c, r = .ok (u, c) → HandlerEffect i s u c) (herr : ∀ f, r = .error f → FaultRecord s f) :
    Completed i s t ∨ ∃ f, t = raise s f ∧ FaultRecord s f := by
  rcases complete_cases h with ⟨u, c, hr, rfl⟩ | ⟨f, hf, rfl⟩
  · exact .inl (completed_of_effect (hok u c hr))
  · exact .inr ⟨f, rfl, herr f hf⟩

/-! ### Each family -/

theorem faultRecord_invalidRegister {s : State} {b : Byte} {f : Fault}
    (h : 8 ≤ b.toNat ∧ f = .invalidRegister b) : FaultRecord s f := h.2 ▸ h.1

theorem faultRecord_forbidden {s : State} {a : Nat} {f : Fault}
    (h : writeForbidden s a = true ∧ f = .addressingFault a) : FaultRecord s f :=
  h.2 ▸ writeForbidden_eq_true.mp h.1

theorem faultRecord_underflow {s : State} {f : Fault} (h : s.sp = spInit ∧ f = .stackUnderflow spInit) :
    FaultRecord s f := h.2 ▸ rfl

/-- The ALU instructions. -/
theorem aluInstruction_effect {i : Instr} {op : AluOp} {d : Byte} {src : AluSource} {n : Nat} {s t : State}
    (h : aluInstruction op d src n s = .next t) (hi : i ≠ .hlt) (hr : i ≠ .iret) (hn : i.length = n) :
    Completed i s t ∨ ∃ f, t = raise s f ∧ FaultRecord s f := by
  subst hn
  refine complete_effect h (fun u c hu => ?_) fun f hf => ?_
  · obtain ⟨v, hv, he⟩ := bind_eq_ok.mp hu
    cases he
    rcases aluApply_eq_ok hv with ⟨r, w, rfl⟩ | ⟨va, vb, rfl⟩
    · exact effect_of hr rfl (fun _ hk => hk) (.inl rfl) (.inl ⟨rfl, hi⟩)
    · exact effect_of hr rfl (fun _ hk => compareFlags_keeps _ _ _ hk) (.inl rfl) (.inl ⟨rfl, hi⟩)
  · rcases bind_eq_error.mp hf with hf | ⟨_, -, hf⟩
    · rcases aluApply_eq_error hf with ⟨b, hb⟩ | rfl
      · exact faultRecord_invalidRegister hb
      · rfl
    · cases hf

theorem execHlt_effect {s t : State} (h : execHlt s = .next t) :
    Completed .hlt s t ∨ ∃ f, t = raise s f ∧ FaultRecord s f := by
  refine complete_effect h (fun u c hu => ?_) fun f hf => ?_
  · cases hu
    exact effect_of (by decide) rfl (fun _ hk => hk) (.inl rfl) (.inr (.inr ⟨rfl, rfl⟩))
  · cases hf

theorem execLdi_effect {a v : Byte} {s t : State} (h : execLdi a v s = .next t) :
    Completed (.ldi a v) s t ∨ ∃ f, t = raise s f ∧ FaultRecord s f := by
  refine complete_effect h (fun u c hu => ?_) fun f hf => ?_
  · obtain ⟨w, hw, he⟩ := bind_eq_ok.mp hu
    cases he
    obtain ⟨r, -, rfl⟩ := writeReg_eq_ok.mp hw
    exact effect_of nofun rfl (fun _ hk => hk) (.inl rfl) (.inl ⟨rfl, nofun⟩)
  · rcases bind_eq_error.mp hf with hf | ⟨_, -, hf⟩
    · exact faultRecord_invalidRegister (writeReg_eq_error.mp hf)
    · cases hf

theorem effectiveAddress_eq_ok {s : State} {b : Byte} {a : Nat} (h : effectiveAddress s b = .ok a) :
    ∃ r, b = regIndex r ∧ a = (s.reg r).toNat := by
  obtain ⟨v, hv, ha⟩ := bind_eq_ok.mp h
  obtain ⟨r, hb, rfl⟩ := readReg_eq_ok.mp hv
  exact ⟨r, hb, (Except.ok.inj ha).symm⟩

theorem effectiveAddress_eq_error {s : State} {b : Byte} {f : Fault} (h : effectiveAddress s b = .error f) :
    8 ≤ b.toNat ∧ f = .invalidRegister b := by
  rcases bind_eq_error.mp h with h | ⟨_, -, h⟩
  · exact readReg_eq_error.mp h
  · cases h

theorem execLd_effect {a b : Byte} {s t : State} (h : execLd a b s = .next t) :
    Completed (.ld a b) s t ∨ ∃ f, t = raise s f ∧ FaultRecord s f := by
  refine complete_effect h (fun u c hu => ?_) fun f hf => ?_
  · simp only [bind_eq_ok] at hu
    obtain ⟨_, -, addr, -, v, -, w, hw, he⟩ := hu
    cases he
    obtain ⟨r, -, rfl⟩ := writeReg_eq_ok.mp hw
    exact effect_of nofun rfl (fun _ hk => hk) (.inl rfl) (.inl ⟨rfl, nofun⟩)
  · simp only [bind_eq_error] at hf
    rcases hf with hf | ⟨_, -, hf | ⟨addr, ha, hf | ⟨v, -, hf | ⟨_, -, hf⟩⟩⟩⟩
    · exact faultRecord_invalidRegister (checkReg_eq_error.mp hf)
    · exact faultRecord_invalidRegister (effectiveAddress_eq_error hf)
    · obtain ⟨r, -, rfl⟩ := effectiveAddress_eq_ok ha
      rw [memRead_byte] at hf
      cases hf
    · exact faultRecord_invalidRegister (writeReg_eq_error.mp hf)
    · cases hf

theorem execSt_effect {a b : Byte} {s t : State} (h : execSt a b s = .next t) :
    Completed (.st a b) s t ∨ ∃ f, t = raise s f ∧ FaultRecord s f := by
  refine complete_effect h (fun u c hu => ?_) fun f hf => ?_
  · simp only [bind_eq_ok] at hu
    obtain ⟨addr, -, v, -, w, hw, he⟩ := hu
    cases he
    obtain ⟨hf, rfl⟩ := memWrite_eq_ok.mp hw
    exact effect_of nofun rfl (fun _ hk => hk) (.inr ⟨rfl, _, _, hf, rfl⟩) (.inl ⟨rfl, nofun⟩)
  · simp only [bind_eq_error] at hf
    rcases hf with hf | ⟨addr, -, hf | ⟨v, -, hf | ⟨_, -, hf⟩⟩⟩
    · exact faultRecord_invalidRegister (effectiveAddress_eq_error hf)
    · exact faultRecord_invalidRegister (readReg_eq_error.mp hf)
    · exact faultRecord_forbidden (memWrite_eq_error.mp hf)
    · cases hf

theorem execPush_effect {a : Byte} {s t : State} (h : execPush a s = .next t) :
    Completed (.push a) s t ∨ ∃ f, t = raise s f ∧ FaultRecord s f := by
  refine complete_effect h (fun u c hu => ?_) fun f hf => ?_
  · simp only [bind_eq_ok] at hu
    obtain ⟨v, -, w, hw, he⟩ := hu
    cases he
    obtain ⟨hf, rfl⟩ := push_eq_ok.mp hw
    exact effect_of nofun rfl (fun _ hk => hk) (.inr ⟨rfl, _, _, hf, rfl⟩) (.inl ⟨rfl, nofun⟩)
  · simp only [bind_eq_error] at hf
    rcases hf with hf | ⟨v, -, hf | ⟨_, -, hf⟩⟩
    · exact faultRecord_invalidRegister (readReg_eq_error.mp hf)
    · exact faultRecord_forbidden (push_eq_error.mp hf)
    · cases hf

theorem execPop_effect {a : Byte} {s t : State} (h : execPop a s = .next t) :
    Completed (.pop a) s t ∨ ∃ f, t = raise s f ∧ FaultRecord s f := by
  refine complete_effect h (fun u c hu => ?_) fun f hf => ?_
  · simp only [bind_eq_ok] at hu
    obtain ⟨_, -, ⟨v, w⟩, hw, x, hx, he⟩ := hu
    cases he
    obtain ⟨-, hw⟩ := pop_eq_ok.mp hw
    obtain ⟨rfl, rfl⟩ := Prod.mk.inj hw
    obtain ⟨r, -, rfl⟩ := writeReg_eq_ok.mp hx
    exact effect_of nofun rfl (fun _ hk => hk) (.inl rfl) (.inl ⟨rfl, nofun⟩)
  · simp only [bind_eq_error] at hf
    rcases hf with hf | ⟨_, -, hf | ⟨_, -, hf | ⟨_, -, hf⟩⟩⟩
    · exact faultRecord_invalidRegister (checkReg_eq_error.mp hf)
    · exact faultRecord_underflow (pop_eq_error.mp hf)
    · exact faultRecord_invalidRegister (writeReg_eq_error.mp hf)
    · cases hf

theorem execJmp_effect {a : Byte} {s t : State} (h : execJmp a s = .next t) :
    Completed (.jmp a) s t ∨ ∃ f, t = raise s f ∧ FaultRecord s f := by
  refine complete_effect h (fun u c hu => ?_) fun f hf => ?_
  · obtain ⟨v, -, he⟩ := bind_eq_ok.mp hu
    cases he
    exact effect_of nofun rfl (fun _ hk => hk) (.inl rfl) (.inr (.inl ⟨v, rfl, (by decide : setsPcOpcode 0x54 = true), nofun⟩))
  · rcases bind_eq_error.mp hf with hf | ⟨_, -, hf⟩
    · exact faultRecord_invalidRegister (readReg_eq_error.mp hf)
    · cases hf

theorem execJeq_effect {a : Byte} {s t : State} (h : execJeq a s = .next t) :
    Completed (.jeq a) s t ∨ ∃ f, t = raise s f ∧ FaultRecord s f := by
  refine complete_effect h (fun u c hu => ?_) fun f hf => ?_
  · obtain ⟨v, -, he⟩ := bind_eq_ok.mp hu
    cases he
    refine effect_of nofun rfl (fun _ hk => hk) (.inl rfl) ?_
    cases flEqual s.fl
    · exact .inl ⟨rfl, nofun⟩
    · exact .inr (.inl ⟨v, rfl, (by decide : setsPcOpcode 0x55 = true), nofun⟩)
  · rcases bind_eq_error.mp hf with hf | ⟨_, -, hf⟩
    · exact faultRecord_invalidRegister (readReg_eq_error.mp hf)
    · cases hf

theorem execJne_effect {a : Byte} {s t : State} (h : execJne a s = .next t) :
    Completed (.jne a) s t ∨ ∃ f, t = raise s f ∧ FaultRecord s f := by
  refine complete_effect h (fun u c hu => ?_) fun f hf => ?_
  · obtain ⟨v, -, he⟩ := bind_eq_ok.mp hu
    cases he
    refine effect_of nofun rfl (fun _ hk => hk) (.inl rfl) ?_
    cases flEqual s.fl
    · exact .inr (.inl ⟨v, rfl, (by decide : setsPcOpcode 0x56 = true), nofun⟩)
    · exact .inl ⟨rfl, nofun⟩
  · rcases bind_eq_error.mp hf with hf | ⟨_, -, hf⟩
    · exact faultRecord_invalidRegister (readReg_eq_error.mp hf)
    · cases hf

theorem execCall_effect {a : Byte} {s t : State} (h : execCall a s = .next t) :
    Completed (.call a) s t ∨ ∃ f, t = raise s f ∧ FaultRecord s f := by
  refine complete_effect h (fun u c hu => ?_) fun f hf => ?_
  · simp only [bind_eq_ok] at hu
    obtain ⟨v, -, w, hw, he⟩ := hu
    cases he
    rcases Nat.lt_or_ge (s.pc + 2) memSize with hpc | hpc
    · rw [pushPc_eq_push hpc] at hw
      obtain ⟨hf, rfl⟩ := push_eq_ok.mp hw
      exact effect_of nofun rfl (fun _ hk => hk) (.inr ⟨rfl, _, _, hf, rfl⟩) (.inr (.inl ⟨v, rfl, (by decide : setsPcOpcode 0x50 = true), nofun⟩))
    · rw [pushPc_outside s hpc] at hw
      cases hw
  · simp only [bind_eq_error] at hf
    rcases hf with hf | ⟨v, -, hf | ⟨_, -, hf⟩⟩
    · exact faultRecord_invalidRegister (readReg_eq_error.mp hf)
    · rcases Nat.lt_or_ge (s.pc + 2) memSize with hpc | hpc
      · rw [pushPc_eq_push hpc] at hf
        exact faultRecord_forbidden (push_eq_error.mp hf)
      · rw [pushPc_outside s hpc] at hf
        cases hf
        exact .inl hpc
    · cases hf

theorem execRet_effect {s t : State} (h : execRet s = .next t) :
    Completed .ret s t ∨ ∃ f, t = raise s f ∧ FaultRecord s f := by
  refine complete_effect h (fun u c hu => ?_) fun f hf => ?_
  · obtain ⟨⟨v, w⟩, hw, he⟩ := bind_eq_ok.mp hu
    cases he
    obtain ⟨-, hw⟩ := pop_eq_ok.mp hw
    obtain ⟨rfl, rfl⟩ := Prod.mk.inj hw
    exact effect_of nofun rfl (fun _ hk => hk) (.inl rfl) (.inr (.inl ⟨_, rfl, rfl, nofun⟩))
  · rcases bind_eq_error.mp hf with hf | ⟨_, -, hf⟩
    · exact faultRecord_underflow (pop_eq_error.mp hf)
    · cases hf

theorem execIret_effect {s t : State} (h : execIret s = .next t) :
    Completed .iret s t ∨ ∃ f, t = raise s f ∧ FaultRecord s f := by
  refine complete_effect h (fun u c hu => ?_) fun f hf => ?_
  · obtain ⟨⟨v, w⟩, hw, he⟩ := bind_eq_ok.mp hu
    cases he
    obtain ⟨-, -, hres⟩ := restoreFrame_eq_ok hw
    have hs : u = { s with regs := u.regs, fl := s.byteAt (s.sp + 6).toNat, ie := true } := hres.shape
    exact {
      shape := by rw [hs]
      ie := by rw [hs]; rfl
      fl := fun h => absurd rfl h
      mem := .inl (by rw [hs])
      out := ⟨[], by rw [hs]; simp⟩
      control := .inr (.inl ⟨v, rfl, rfl, nofun⟩) }
  · rcases bind_eq_error.mp hf with hf | ⟨_, -, hf⟩
    · rw [restoreFrame_eq_error hf]
      rfl
    · cases hf

/-- A handler that only emits an event, and then advances. -/
theorem emit_effect {i : Instr} {s : State} (e : OutEvent) (hi : i ≠ .iret) (hh : i ≠ .hlt) :
    HandlerEffect i s (emit s e) (.advance i.length) where
  shape := rfl
  ie := by rw [if_neg hi]; rfl
  fl := fun _ _ hk => hk
  mem := .inl rfl
  out := ⟨[e], rfl⟩
  control := .inl ⟨rfl, hh⟩

theorem execPrn_effect {a : Byte} {s t : State} (h : execPrn a s = .next t) :
    Completed (.prn a) s t ∨ ∃ f, t = raise s f ∧ FaultRecord s f := by
  refine complete_effect h (fun u c hu => ?_) fun f hf => ?_
  · obtain ⟨v, -, he⟩ := bind_eq_ok.mp hu
    cases he
    exact emit_effect (i := .prn a) _ nofun nofun
  · rcases bind_eq_error.mp hf with hf | ⟨_, -, hf⟩
    · exact faultRecord_invalidRegister (readReg_eq_error.mp hf)
    · cases hf

theorem execPra_effect {a : Byte} {s t : State} (h : execPra a s = .next t) :
    Completed (.pra a) s t ∨ ∃ f, t = raise s f ∧ FaultRecord s f := by
  refine complete_effect h (fun u c hu => ?_) fun f hf => ?_
  · obtain ⟨v, -, he⟩ := bind_eq_ok.mp hu
    cases he
    by_cases hv : v = 0
    · rw [if_pos hv]
      exact effect_of nofun rfl (fun _ hk => hk) (.inl rfl) (.inl ⟨rfl, nofun⟩)
    · rw [if_neg hv]
      exact emit_effect (i := .pra a) _ nofun nofun
  · rcases bind_eq_error.mp hf with hf | ⟨_, -, hf⟩
    · exact faultRecord_invalidRegister (readReg_eq_error.mp hf)
    · cases hf

/-! ### All of them -/

/-- Every instruction completes with the effects of `Completed`, or is undone with a fault that its state shows. -/
theorem exec_cases {i : Instr} {s t : State} (h : exec i s = .next t) :
    Completed i s t ∨ ∃ f, t = raise s f ∧ FaultRecord s f := by
  cases i with
  | ldi a v => exact execLdi_effect h
  | prn a => exact execPrn_effect h
  | hlt => exact execHlt_effect h
  | mul a b => exact aluInstruction_effect (op := .multiply) h nofun nofun rfl
  | add a b => exact aluInstruction_effect (op := .add) h nofun nofun rfl
  | push a => exact execPush_effect h
  | pop a => exact execPop_effect h
  | jmp a => exact execJmp_effect h
  | st a b => exact execSt_effect h
  | pra a => exact execPra_effect h
  | ld a b => exact execLd_effect h
  | call a => exact execCall_effect h
  | ret => exact execRet_effect h
  | iret => exact execIret_effect h
  | cmp a b => exact aluInstruction_effect (op := .compare) h nofun nofun rfl
  | jeq a => exact execJeq_effect h
  | jne a => exact execJne_effect h
  | and a b => exact aluInstruction_effect (op := .and) h nofun nofun rfl
  | or a b => exact aluInstruction_effect (op := .or) h nofun nofun rfl
  | xor a b => exact aluInstruction_effect (op := .xor) h nofun nofun rfl
  | not a => exact aluInstruction_effect (op := .not) h nofun nofun rfl
  | shl a b => exact aluInstruction_effect (op := .shiftLeft) h nofun nofun rfl
  | shr a b => exact aluInstruction_effect (op := .shiftRight) h nofun nofun rfl
  | mod a b => exact aluInstruction_effect (op := .modulo) h nofun nofun rfl

/-- Every instruction answers a next state: none is refused, and a fault is a next state with its status. -/
theorem exec_next (i : Instr) (s : State) : ∃ t, exec i s = .next t := by
  cases i <;> simp only [exec] <;> exact complete_next _ _

end Sys2Proof.Machine
end

