-- ==== Sys2Proof/Laws/Loop.lean ====
section
/-! SUPPORT. What one step can do, said once: the fetch, the choice of the interrupt line, and the cases of a step. -/

namespace Sys2Proof.Machine

/-! ### The fetch -/

/-- The bytes the fetch unit can read: the cells from `pc` on, at most three, up to 255. -/
theorem codeBytes_eq (s : State) :
    codeBytes s = (List.range (min 3 (memSize - s.pc))).map fun k => s.byteAt (s.pc + k) := by
  have ok : ∀ k, s.pc + k < memSize → (memRead s (s.pc + k)).toOption = some (s.byteAt (s.pc + k)) := fun k h => by
    rw [memRead_ok s h]; rfl
  have out : ∀ k, memSize ≤ s.pc + k → (memRead s (s.pc + k)).toOption = none := fun k h => by
    rw [memRead_outside s h]; rfl
  have hm : memSize = 256 := rfl
  rcases (show memSize ≤ s.pc ∨ s.pc = 255 ∨ s.pc = 254 ∨ s.pc < 254 by omega) with h | h | h | h
  · have hn : min 3 (memSize - s.pc) = 0 := by omega
    rw [hn]
    simp only [codeBytes, List.filterMap_cons, List.filterMap_nil, out 0 (by omega), out 1 (by omega), out 2 (by omega)]
    rfl
  · have hn : min 3 (memSize - s.pc) = 1 := by omega
    rw [hn]
    simp only [codeBytes, List.filterMap_cons, List.filterMap_nil, ok 0 (by omega), out 1 (by omega), out 2 (by omega)]
    rfl
  · have hn : min 3 (memSize - s.pc) = 2 := by omega
    rw [hn]
    simp only [codeBytes, List.filterMap_cons, List.filterMap_nil, ok 0 (by omega), ok 1 (by omega), out 2 (by omega)]
    rfl
  · have hn : min 3 (memSize - s.pc) = 3 := by omega
    rw [hn]
    simp only [codeBytes, List.filterMap_cons, List.filterMap_nil, ok 0 (by omega), ok 1 (by omega), ok 2 (by omega)]
    rfl

theorem codeBytes_length (s : State) : (codeBytes s).length = min 3 (memSize - s.pc) := by
  rw [codeBytes_eq, List.length_map, List.length_range]

theorem codeBytes_head {s : State} {b : Byte} {more : List Byte} (h : codeBytes s = b :: more) :
    s.pc < memSize ∧ s.byteAt s.pc = b := by
  have hl := codeBytes_length s
  rw [h, List.length_cons] at hl
  have h0 : (codeBytes s)[0]? = some b := by rw [h]; rfl
  rw [codeBytes_eq, List.getElem?_map, List.getElem?_range (by omega)] at h0
  exact ⟨by omega, by simpa using h0⟩

/-- A fetch that succeeds read the instruction's opcode at `pc`, and all its bytes lie below 256. -/
theorem fetch_eq_ok {s : State} {i : Instr} (h : fetch s = .ok i) :
    s.byteAt s.pc = i.opcode ∧ s.pc < memSize ∧ s.pc + i.length ≤ memSize := by
  simp only [fetch] at h
  split at h <;> cases h
  rename_i hd
  obtain ⟨hh, hl⟩ := decode_eq_ok hd
  obtain ⟨more, hc⟩ := List.head?_eq_some_iff.mp hh
  obtain ⟨hpc, hb⟩ := codeBytes_head hc
  rw [codeBytes_length] at hl
  exact ⟨hb, hpc, by omega⟩

/-- A fetch raises a fault that the state shows. -/
theorem fetch_eq_error {s : State} {f : Fault} (h : fetch s = .error f) : FaultRecord s f := by
  simp only [fetch] at h
  split at h
  · cases h
  · rename_i hd
    cases h
    rcases decode_eq_error hd with ⟨hb, -⟩ | ⟨_, _, _, _, he⟩ | ⟨_, _, _, _, _, he, _⟩
    · have := codeBytes_length s
      rw [hb, List.length_nil] at this
      left
      omega
    · cases he
    · cases he
  · rename_i hd
    cases h
    rcases decode_eq_error hd with ⟨_, he⟩ | ⟨ir, more, hc, hr, -⟩ | ⟨_, _, _, _, _, he, _⟩
    · cases he
    · obtain ⟨hpc, hb⟩ := codeBytes_head hc
      exact ⟨rfl, hpc, by rw [hb, hr]⟩
    · cases he
  · rename_i k hd
    cases h
    rcases decode_eq_error hd with ⟨_, he⟩ | ⟨_, _, _, _, he⟩ | ⟨ir, more, row, hc, hr, he, hlt⟩
    · cases he
    · cases he
    · cases he
      have hl := codeBytes_length s
      have h2 := operandCount_le hr
      obtain ⟨hpc, -⟩ := codeBytes_head hc
      left
      omega

/-! ### The interrupt line -/

theorem mem_lines (n : Line) : n ∈ ([0, 1, 2, 3, 4, 5, 6, 7] : List Line) := by revert n; decide

theorem find?_eight {p : Line → Bool} {n : Line} :
    ([0, 1, 2, 3, 4, 5, 6, 7] : List Line).find? p = some n ↔ p n = true ∧ ∀ m, m < n → p m = false := by
  constructor
  · intro h
    obtain ⟨hn, as, bs, hl, ha⟩ := List.find?_eq_some_iff_append.mp h
    refine ⟨hn, fun m hm => ?_⟩
    have hs : (as ++ n :: bs).Pairwise (· < ·) := by rw [← hl]; decide
    have hmem : m ∈ as ++ n :: bs := hl ▸ mem_lines m
    rcases List.mem_append.mp hmem with hma | hmb
    · simpa using ha m hma
    · exfalso
      rcases List.mem_cons.mp hmb with rfl | hmb
      · exact absurd hm (lt_irrefl m)
      · have := (List.pairwise_cons.mp (List.pairwise_append.mp hs).2.1).1 m hmb
        exact absurd (lt_trans this hm) (lt_irrefl n)
  · rintro ⟨hn, hlt⟩
    cases hf : ([0, 1, 2, 3, 4, 5, 6, 7] : List Line).find? p with
    | none =>
      exact absurd hn (by simpa using List.find?_eq_none.mp hf n (mem_lines n))
    | some m =>
      obtain ⟨hm, as, bs, hl, ha⟩ := List.find?_eq_some_iff_append.mp hf
      have hs : (as ++ m :: bs).Pairwise (· < ·) := by rw [← hl]; decide
      have hmem : n ∈ as ++ m :: bs := hl ▸ mem_lines n
      rcases List.mem_append.mp hmem with hna | hnb
      · exact absurd hn (by simpa using ha n hna)
      · rcases List.mem_cons.mp hnb with rfl | hnb
        · rfl
        · have := (List.pairwise_cons.mp (List.pairwise_append.mp hs).2.1).1 n hnb
          rw [hlt m this] at hm
          cases hm

/-- The interrupt check takes line `n` exactly when interrupts are enabled, the line is pending and unmasked, and no
lower line is (60_exceptions.md R193, R195). -/
theorem pendingLine_eq_some {s : State} {n : Line} :
    pendingLine s = some n ↔ s.ie = true ∧ (s.intMask &&& s.intStatus).getLsbD n = true ∧
      ∀ m, m < n → (s.intMask &&& s.intStatus).getLsbD m = false := by
  simp only [pendingLine]
  cases s.ie
  · simp
  · simp only [if_true, lowestLine, find?_eight, true_and]

/-- The interrupt check takes nothing exactly when interrupts are disabled or no line is both pending and unmasked
(40_fetch_and_sequence.md R104). -/
theorem pendingLine_eq_none {s : State} :
    pendingLine s = none ↔ s.ie = false ∨ ∀ n : Line, (s.intMask &&& s.intStatus).getLsbD n = false := by
  simp only [pendingLine]
  cases s.ie
  · simp
  · simp only [if_true, lowestLine, List.find?_eq_none, Bool.true_eq_false, false_or]
    constructor
    · intro h n
      simpa using h n (mem_lines n)
    · intro h n _
      rw [h n]
      exact Bool.false_ne_true

/-! ### The cases of a step -/

@[simp] theorem release_status (k : StepKind) (s : State) : (release k s).status = s.status := by
  cases k with
  | iterate => rfl
  | stop => rfl
  | deliver e => cases e <;> rfl

theorem step_running {s : State} (hs : s.status = .running) :
    step s = transition (nextKind s) (release (nextKind s) s) := by
  simp only [step, nextStep, hs]

theorem transition_running {s : State} (k : StepKind) (hs : s.status = .running) :
    transition k s = match k with
      | .iterate => iterate s
      | .deliver e => .next (deliver e s)
      | .stop => .next (stop s) := by
  cases k <;> simp only [transition, hs]

/-- Running, with nothing held at the interface: the next step is an iteration. -/
structure Ready (s : State) : Prop where
  running : s.status = .running
  noStop : s.stopRequested = false
  noTimer : s.timerFired = false
  noInput : s.inputFired = none

theorem step_eq_iterate {s : State} (h : Ready s) : step s = iterate s := by
  simp [step, nextStep, h.running, nextKind, h.noStop, h.noTimer, h.noInput, transition, release]

/-- What an iteration that answers a next state has done. It does not look at what the interface holds. -/
inductive IterateCase (s t : State) : Prop where
  /-- An interrupt is taken. -/
  | interrupt (n : Line) (hn : pendingLine s = some n) (ht : interruptEntry s n = .ok t)
  /-- An instruction completes. -/
  | instruction (i : Instr) (hp : pendingLine s = none) (ho : overflowed s = false)
      (hf : fetch s = .ok i) (hx : exec i s = .next t) (ht : Completed i s t)
  /-- The iteration is undone with a fault. -/
  | fault (f : Fault) (ht : t = raise s f) (hf : FaultRecord s f)

theorem iterate_cases {s t : State} (h : iterate s = .next t) : IterateCase s t := by
  simp only [iterate] at h
  split at h
  · rename_i n hn
    rcases settle_cases h with h | ⟨f, hf, rfl⟩
    · exact .interrupt n hn h
    · obtain ⟨a, ha⟩ := interruptEntry_eq_error hf
      exact .fault f rfl (faultRecord_forbidden ha)
  · rename_i hp
    split at h
    · rename_i ho
      rcases settle_cases h with h | ⟨f, hf, rfl⟩
      · cases h
      · cases hf
        exact .fault _ rfl ⟨rfl, ho⟩
    · rename_i ho
      split at h
      · rename_i i hf
        rcases exec_cases h with hc | ⟨f, rfl, hr⟩
        · exact .instruction i hp (by simpa using ho) hf h hc
        · exact .fault f rfl hr
      · rename_i f hf
        rcases settle_cases h with h | ⟨g, hg, rfl⟩
        · cases h
        · cases hg
          exact .fault f rfl (fetch_eq_error hf)

/-- What a step of a given kind that answers a next state has done (40_fetch_and_sequence.md R114). -/
inductive TransitionCase (s t : State) : StepKind → Prop where
  /-- The machine has halted or was stopped: nothing changes. -/
  | ended {k : StepKind} (hs : s.status = .halted ∨ s.status = .stopped) (ht : t = s) : TransitionCase s t k
  /-- The outside stop. -/
  | stop (hs : s.status = .running) (ht : t = { s with status := .stopped }) : TransitionCase s t .stop
  /-- A timer firing is delivered. -/
  | timer (hs : s.status = .running) (ht : t = raiseLine s s.cfg.timerLine) : TransitionCase s t (.deliver .timer)
  /-- An input is delivered. -/
  | input {key : Option Byte} (hs : s.status = .running)
      (ht : t = raiseLine { s with mem := Memory.write s.mem keyAddr (key.getD 0) } s.cfg.inputLine) :
      TransitionCase s t (.deliver (.input key))
  /-- An iteration. -/
  | iterate (hs : s.status = .running) (hc : IterateCase s t) : TransitionCase s t .iterate

theorem transition_cases {k : StepKind} {s t : State} (h : transition k s = .next t) : TransitionCase s t k := by
  cases hs : s.status with
  | halted =>
    simp only [transition, hs, Host.Outcome.next.injEq] at h
    exact .ended (.inl hs) h.symm
  | stopped =>
    simp only [transition, hs, Host.Outcome.next.injEq] at h
    exact .ended (.inr hs) h.symm
  | faulted f =>
    simp only [transition, hs, reduceCtorEq] at h
  | running =>
    rw [transition_running k hs] at h
    cases k with
    | iterate => exact .iterate hs (iterate_cases h)
    | stop => exact .stop hs ((Host.Outcome.next.inj h).symm.trans (if_pos hs))
    | deliver e =>
      have hd := (Host.Outcome.next.inj h).symm.trans (if_pos hs)
      cases e with
      | timer => exact .timer hs hd
      | input key => exact .input hs hd

/-- What a step that answers a next state has done. -/
inductive StepCase (s t : State) : Prop where
  /-- The machine has halted or was stopped: nothing changes. -/
  | ended (hs : s.status = .halted ∨ s.status = .stopped) (ht : t = s)
  /-- The outside stop. -/
  | stop (hs : s.status = .running) (hr : s.stopRequested = true) (ht : t = { s with status := .stopped })
  /-- The held timer firing is delivered. -/
  | timer (hs : s.status = .running) (hr : s.stopRequested = false) (hf : s.timerFired = true)
      (ht : t = raiseLine { s with timerFired := false } s.cfg.timerLine)
  /-- The held input is delivered. -/
  | input (key : Option Byte) (hs : s.status = .running) (hr : s.stopRequested = false) (hq : s.timerFired = false)
      (hf : s.inputFired = some key)
      (ht : t = raiseLine { s with inputFired := none, mem := Memory.write s.mem keyAddr (key.getD 0) } s.cfg.inputLine)
  /-- An iteration, with nothing held at the interface. -/
  | iterate (hs : Ready s) (hc : IterateCase s t)

theorem step_cases {s t : State} (h : step s = .next t) : StepCase s t := by
  cases hs : s.status with
  | halted =>
    simp only [step, nextStep, hs, Host.Outcome.next.injEq] at h
    exact .ended (.inl hs) h.symm
  | stopped =>
    simp only [step, nextStep, hs, Host.Outcome.next.injEq] at h
    exact .ended (.inr hs) h.symm
  | faulted f =>
    simp only [step, nextStep, hs, reduceCtorEq] at h
  | running =>
    rw [step_running hs, transition_running _ ((release_status _ s).trans hs)] at h
    cases hr : s.stopRequested with
    | true =>
      have hk : nextKind s = .stop := by simp [nextKind, hr]
      simp only [hk, release, stop, hs, if_true, Host.Outcome.next.injEq] at h
      exact .stop hs hr h.symm
    | false =>
      cases hf : s.timerFired with
      | true =>
        have hk : nextKind s = .deliver .timer := by simp [nextKind, hr, hf]
        rw [hk] at h
        refine .timer hs hr hf (Eq.trans (Host.Outcome.next.inj h).symm ?_)
        exact if_pos hs
      | false =>
        cases hi : s.inputFired with
        | some key =>
          have hk : nextKind s = .deliver (.input key) := by simp [nextKind, hr, hf, hi]
          rw [hk] at h
          refine .input key hs hr hf hi (Eq.trans (Host.Outcome.next.inj h).symm ?_)
          exact if_pos hs
        | none =>
          have hk : nextKind s = .iterate := by simp [nextKind, hr, hf, hi]
          rw [hk] at h
          exact .iterate ⟨hs, hr, hf, hi⟩ (iterate_cases h)

theorem iterate_next (s : State) : ∃ t, iterate s = .next t := by
  simp only [iterate]
  split
  · cases interruptEntry s _ <;> exact ⟨_, rfl⟩
  · split
    · exact ⟨_, rfl⟩
    · split
      · exact exec_next _ _
      · exact ⟨_, rfl⟩

/-- A step never refuses, and answers a fault only in a machine that already stopped with it. -/
theorem step_total (s : State) : (∃ t, step s = .next t) ∨ ∃ f, s.status = .faulted f ∧ step s = .fault f := by
  cases hs : s.status with
  | halted => exact .inl ⟨s, by simp only [step, nextStep, hs]⟩
  | stopped => exact .inl ⟨s, by simp only [step, nextStep, hs]⟩
  | faulted f => exact .inr ⟨f, rfl, by simp only [step, nextStep, hs]⟩
  | running =>
    rw [step_running hs, transition_running _ ((release_status _ s).trans hs)]
    cases nextKind s with
    | iterate => exact .inl (iterate_next _)
    | deliver e => exact .inl ⟨_, rfl⟩
    | stop => exact .inl ⟨_, rfl⟩

end Sys2Proof.Machine
end

