-- ==== Sys2Proof/Laws/PerInstr.lean ====
section
/-! SUPPORT. One family of statements made per instruction: the row of the opcode table that an instruction's opcode
selects builds the instruction back from its operand bytes (spec/30_encoding.md R83, R86). -/

namespace Sys2Proof.Laws.OpcodeRow

/-- The row that the opcode of `i` selects, given the operand bytes of `i`, builds `i`: no operand is dropped and none
changes place. -/
def Statement (i : Instr) : Prop :=
  ∃ row, findRow i.opcode = some row ∧ row.build (i.operandBytes.getD 0 0) (i.operandBytes.getD 1 0) = i

theorem ldi (a i : Byte) : Statement (.ldi a i) := ⟨_, rfl, rfl⟩

theorem prn (a : Byte) : Statement (.prn a) := ⟨_, rfl, rfl⟩

theorem hlt : Statement .hlt := ⟨_, rfl, rfl⟩

theorem mul (a b : Byte) : Statement (.mul a b) := ⟨_, rfl, rfl⟩

theorem add (a b : Byte) : Statement (.add a b) := ⟨_, rfl, rfl⟩

theorem push (a : Byte) : Statement (.push a) := ⟨_, rfl, rfl⟩

theorem pop (a : Byte) : Statement (.pop a) := ⟨_, rfl, rfl⟩

theorem jmp (a : Byte) : Statement (.jmp a) := ⟨_, rfl, rfl⟩

theorem st (a b : Byte) : Statement (.st a b) := ⟨_, rfl, rfl⟩

theorem pra (a : Byte) : Statement (.pra a) := ⟨_, rfl, rfl⟩

theorem ld (a b : Byte) : Statement (.ld a b) := ⟨_, rfl, rfl⟩

theorem call (a : Byte) : Statement (.call a) := ⟨_, rfl, rfl⟩

theorem ret : Statement .ret := ⟨_, rfl, rfl⟩

theorem iret : Statement .iret := ⟨_, rfl, rfl⟩

theorem cmp (a b : Byte) : Statement (.cmp a b) := ⟨_, rfl, rfl⟩

theorem jeq (a : Byte) : Statement (.jeq a) := ⟨_, rfl, rfl⟩

theorem jne (a : Byte) : Statement (.jne a) := ⟨_, rfl, rfl⟩

theorem and (a b : Byte) : Statement (.and a b) := ⟨_, rfl, rfl⟩

theorem or (a b : Byte) : Statement (.or a b) := ⟨_, rfl, rfl⟩

theorem xor (a b : Byte) : Statement (.xor a b) := ⟨_, rfl, rfl⟩

theorem not (a : Byte) : Statement (.not a) := ⟨_, rfl, rfl⟩

theorem shl (a b : Byte) : Statement (.shl a b) := ⟨_, rfl, rfl⟩

theorem shr (a b : Byte) : Statement (.shr a b) := ⟨_, rfl, rfl⟩

theorem mod (a b : Byte) : Statement (.mod a b) := ⟨_, rfl, rfl⟩

end Sys2Proof.Laws.OpcodeRow
end

