-- ==== Sys2Proof/Tests/Slice0.lean ====
section
/-! SUPPORT. The model's own tests: words written out from spec/30_encoding.md R86, one-step vectors whose expected
results are the rows of spec/95_test_vectors.md (the row is named in each docstring), the check of WellFormed, and a
witness for the hypotheses of every obligation. -/

namespace Sys2Proof.Tests

open Sys2Proof Sys2Proof.Machine Sys2Proof.Claims

set_option maxRecDepth 8000

/-! ### Helpers -/

/-- The state of an outcome that has one. -/
def nextState : Host.Outcome State Fault Refusal → Option State
  | .next s => some s
  | .fault _ => none
  | .refused _ => none

/-- The set-up of 95_test_vectors.md section 2: reset values, then `pc` 16, `prog_top` 31, the bytes at 16. -/
def at16 (bs : List Byte) : State :=
  { State.reset with pc := 16, progTop := some 31, mem := Memory.store [] 16 bs }

/-- Registers given values. -/
def regs (l : List (Fin 8 × Byte)) (s : State) : State := l.foldl (fun t p => t.setReg p.1 p.2) s

/-- Cells given values. -/
def cells (l : List (Nat × Byte)) (s : State) : State :=
  { s with mem := l.foldl (fun m p => Memory.write m p.1 p.2) s.mem }

/-- The vector-table protection switched off. -/
def unprotected (s : State) : State := { s with cfg := { s.cfg with vtProtect := false } }

/-- One row of the vectors: the bytes, the "before" column, the "after" column as a change of that state. -/
abbrev Row (bs : List Byte) (before after : State → State) : Prop :=
  nextState (step (before (at16 bs))) = some (after (before (at16 bs)))

/-- Bytes placed at an address of their own, with nothing loaded (the rows "at 254" and the like). -/
def placed (addr : Nat) (bs : List Byte) : State :=
  { State.reset with pc := addr, mem := Memory.store [] addr bs }

/-! ### Decoding: the words of R86, bit by bit (first byte in bits 7..0) -/

theorem test_decode_ldi : decodeTableWord 24 0b00001000_00000000_10000010 = some (.ldi 0 8) := by decide

theorem test_decode_ld : decodeTableWord 24 0b00000001_00000010_10000011 = some (.ld 2 1) := by decide

theorem test_decode_st : decodeTableWord 24 0b00000001_00000000_10000100 = some (.st 0 1) := by decide

theorem test_decode_stack :
    decodeTableWord 16 0b00000010_01000101 = some (.push 2) ∧
      decodeTableWord 16 0b00000011_01000110 = some (.pop 3) := by decide

theorem test_decode_output :
    decodeTableWord 16 0b00000000_01000111 = some (.prn 0) ∧
      decodeTableWord 16 0b00000001_01001000 = some (.pra 1) ∧ decodeTableWord 8 0b00000001 = some .hlt := by decide

theorem test_decode_arithmetic :
    decodeTableWord 24 0b00000001_00000000_10100000 = some (.add 0 1) ∧
      decodeTableWord 24 0b00000001_00000000_10100010 = some (.mul 0 1) ∧
      decodeTableWord 24 0b00000001_00000000_10100100 = some (.mod 0 1) ∧
      decodeTableWord 24 0b00000001_00000000_10100111 = some (.cmp 0 1) := by decide

theorem test_decode_bitwise :
    decodeTableWord 24 0b00000001_00000000_10101000 = some (.and 0 1) ∧
      decodeTableWord 24 0b00000001_00000000_10101010 = some (.or 0 1) ∧
      decodeTableWord 24 0b00000001_00000000_10101011 = some (.xor 0 1) ∧
      decodeTableWord 16 0b00000010_01101001 = some (.not 2) ∧
      decodeTableWord 24 0b00000001_00000000_10101100 = some (.shl 0 1) ∧
      decodeTableWord 24 0b00000001_00000000_10101101 = some (.shr 0 1) := by decide

theorem test_decode_transfers :
    decodeTableWord 16 0b00000100_01010100 = some (.jmp 4) ∧
      decodeTableWord 16 0b00000010_01010101 = some (.jeq 2) ∧
      decodeTableWord 16 0b00000100_01010110 = some (.jne 4) ∧
      decodeTableWord 16 0b00000001_01010000 = some (.call 1) ∧ decodeTableWord 8 0b00010001 = some .ret ∧
      decodeTableWord 8 0b00010011 = some .iret := by decide

/-- The values R90 names, and one of R89: none is an instruction. -/
theorem test_decode_illegal :
    ∀ b ∈ ([0x00, 0x65, 0x66, 0xA1, 0xA3, 0x52, 0x57, 0x58, 0x59, 0x5A, 0xC0, 0xFF] : List Byte),
      decode [b, 0, 0] = .error (.illegalOpcode b) := by decide

/-- Missing operand bytes are told from missing instructions. -/
theorem test_decode_short :
    decode [] = .error .noOpcode ∧ decode [0x47] = .error (.missingOperand 1) ∧
      decode [0x82] = .error (.missingOperand 1) ∧ decode [0x82, 0] = .error (.missingOperand 2) := by decide

/-- R87: the columns "ALU" and "sets PC" of the audit. -/
theorem test_audit_columns :
    (opcodeTable.filter fun r => isAluOpcode r.opcode).map OpcodeRow.mnemonic =
        ["MUL", "ADD", "CMP", "AND", "OR", "XOR", "NOT", "SHL", "SHR", "MOD"] ∧
      (opcodeTable.filter fun r => setsPcOpcode r.opcode).map OpcodeRow.mnemonic =
        ["JMP", "CALL", "RET", "IRET", "JEQ", "JNE"] := by decide

/-- R87: the column `IR[3:0]`. -/
theorem test_audit_identifiers :
    opcodeTable.map (fun r => opcodeIdentifier r.opcode) =
      [2, 7, 1, 2, 0, 5, 6, 4, 4, 8, 3, 0, 1, 3, 7, 5, 6, 8, 10, 11, 9, 12, 13, 4] := by decide

/-! ### WellFormed refuses -/

theorem test_wellFormed_one_register :
    ∀ i ∈ ([.ldi 8 1, .prn 8, .push 255, .pop 8, .jmp 8, .pra 9, .call 8, .jeq 9, .jne 9, .not 8] : List Instr),
      i.wellFormed = false := by decide

theorem test_wellFormed_first_register :
    ∀ i ∈ ([.mul 8 0, .add 8 0, .st 8 1, .ld 8 1, .cmp 8 0, .and 8 0, .or 8 0, .xor 8 0, .shl 8 0, .shr 8 0, .mod 8 0] :
      List Instr), i.wellFormed = false := by decide

theorem test_wellFormed_second_register :
    ∀ i ∈ ([.mul 0 8, .add 0 9, .st 0 8, .ld 2 9, .cmp 0 10, .and 0 8, .or 0 8, .xor 0 8, .shl 0 8, .shr 0 8, .mod 0 8] :
      List Instr), i.wellFormed = false := by decide

/-- The immediate of LDI is never checked (R85). -/
theorem test_wellFormed_immediate : (Instr.ldi 7 255).wellFormed = true ∧ (Instr.ldi 0 8).wellFormed = true := by decide

/-! ### Arithmetic and compare -/

/-- A2. -/
theorem test_add_wraps : Row [0xA0, 0, 1] (regs [(0, 255), (1, 1)]) fun s => { s.setReg 0 0 with pc := 19 } := by decide

/-- A9. -/
theorem test_add_checks_first : Row [0xA0, 8, 9] id fun s => raise s (.invalidRegister 8) := by decide

/-- A13. -/
theorem test_mul_keeps_low_byte : Row [0xA2, 0, 1] (regs [(0, 200), (1, 2)]) fun s => { s.setReg 0 144 with pc := 19 } := by
  decide

/-- X12. -/
theorem test_mul_invalid : Row [0xA2, 8, 8] id fun s => raise s (.invalidRegister 8) := by decide

/-- A20. -/
theorem test_mod : Row [0xA4, 0, 1] (regs [(0, 255), (1, 16)]) fun s => { s.setReg 0 15 with pc := 19 } := by decide

/-- A22. -/
theorem test_mod_by_zero : Row [0xA4, 0, 1] (regs [(0, 17)]) fun s => raise s (.divisionByZero 16) := by decide

/-- A28. -/
theorem test_cmp_unsigned : Row [0xA7, 0, 1] (regs [(0, 200), (1, 100)]) fun s => { s with fl := 2, pc := 19 } := by decide

/-- A33. -/
theorem test_cmp_accumulates :
    Row [0xA7, 0, 1] (fun s => { regs [(0, 1), (1, 2)] s with fl := 0b10101000 })
      fun s => { s with fl := 0b10101100, pc := 19 } := by decide

/-! ### Bitwise and shifts -/

/-- B1. -/
theorem test_and : Row [0xA8, 0, 1] (regs [(0, 204), (1, 170)]) fun s => { s.setReg 0 136 with pc := 19 } := by decide

/-- B4. -/
theorem test_or : Row [0xAA, 0, 1] (regs [(0, 204), (1, 170)]) fun s => { s.setReg 0 238 with pc := 19 } := by decide

/-- B7. -/
theorem test_xor : Row [0xAB, 0, 1] (regs [(0, 204), (1, 170)]) fun s => { s.setReg 0 102 with pc := 19 } := by decide

/-- B10. -/
theorem test_not : Row [0x69, 2] (regs [(2, 15)]) fun s => { s.setReg 2 240 with pc := 18 } := by decide

/-- B15. -/
theorem test_shl_loses_top_bit : Row [0xAC, 0, 1] (regs [(0, 129), (1, 1)]) fun s => { s.setReg 0 2 with pc := 19 } := by
  decide

/-- B17. -/
theorem test_shl_by_eight : Row [0xAC, 0, 1] (regs [(0, 1), (1, 8)]) fun s => { s.setReg 0 0 with pc := 19 } := by decide

/-- B22. -/
theorem test_shr_is_logical : Row [0xAD, 0, 1] (regs [(0, 128), (1, 7)]) fun s => { s.setReg 0 1 with pc := 19 } := by
  decide

/-- B25. -/
theorem test_shr_by_200 : Row [0xAD, 0, 1] (regs [(0, 255), (1, 200)]) fun s => { s.setReg 0 0 with pc := 19 } := by decide

/-! ### Memory access -/

/-- M2. -/
theorem test_ldi : Row [0x82, 3, 0xFF] id fun s => { s.setReg 3 255 with pc := 19 } := by decide

/-- M5. -/
theorem test_ldi_invalid : Row [0x82, 0xFF, 1] id fun s => raise s (.invalidRegister 255) := by decide

/-- M6. -/
theorem test_ld : Row [0x83, 2, 1] (fun s => cells [(64, 42)] (regs [(1, 64)] s)) fun s => { s.setReg 2 42 with pc := 19 } := by
  decide

/-- M12. -/
theorem test_ld_invalid_second : Row [0x83, 2, 9] id fun s => raise s (.invalidRegister 9) := by decide

/-- M13. -/
theorem test_st : Row [0x84, 0, 1] (regs [(0, 64), (1, 42)]) fun s => { cells [(64, 42)] s with pc := 19 } := by decide

/-- M15. -/
theorem test_st_protected : Row [0x84, 0, 1] (regs [(0, 248), (1, 17)]) fun s => raise s (.addressingFault 248) := by decide

/-- M23. -/
theorem test_push_sp : Row [0x45, 7] id fun s => { cells [(243, 244)] (s.setReg 7 243) with pc := 18 } := by decide

/-- M25. -/
theorem test_push_wraps :
    Row [0x45, 0] (fun s => { unprotected (regs [(0, 9), (7, 0)] s) with progTop := none })
      fun s => { cells [(255, 9)] (s.setReg 7 255) with pc := 18 } := by decide

/-- M33. -/
theorem test_pop_sp : Row [0x46, 7] (fun s => cells [(243, 100)] (regs [(7, 243)] s)) fun s => { s.setReg 7 100 with pc := 18 } := by
  decide

/-- M30. -/
theorem test_pop_underflow : Row [0x46, 3] id fun s => raise s (.stackUnderflow 244) := by decide

/-! ### Branches, calls, returns -/

/-- J3. -/
theorem test_jmp_sp : Row [0x54, 7] id fun s => { s with pc := 244 } := by decide

/-- J8. -/
theorem test_jeq_taken : Row [0x55, 2] (fun s => { s.setReg 2 40 with fl := 0b011 }) fun s => { s with pc := 40 } := by decide

/-- J15. -/
theorem test_jeq_reads_bit_zero : Row [0x55, 2] (fun s => { s.setReg 2 40 with fl := 0b11111110 }) fun s => { s with pc := 18 } := by
  decide

/-- J12. -/
theorem test_jne_taken : Row [0x56, 4] (regs [(4, 15)]) fun s => { s with pc := 15 } := by decide

/-- J14. -/
theorem test_jne_checks_untaken : Row [0x56, 9] (fun s => { s with fl := 1 }) fun s => raise s (.invalidRegister 9) := by decide

/-- C2. -/
theorem test_call_sp :
    nextState (step (placed 6 [0x50, 7])) = some { cells [(243, 8)] (placed 6 [0x50, 7]) |>.setReg 7 243 with pc := 244 } := by
  decide

/-- C4. -/
theorem test_call_at_254 :
    nextState (step ((placed 254 [0x50, 1]).setReg 1 9)) =
      some (raise ((placed 254 [0x50, 1]).setReg 1 9) (.addressingFault 256)) := by decide

/-- C7. -/
theorem test_ret : Row [0x11] (fun s => cells [(243, 8)] (regs [(7, 243)] s)) fun s => { s.setReg 7 244 with pc := 8 } := by
  decide

/-- C15. -/
theorem test_iret :
    Row [0x13]
      (fun s => { cells [(100, 10), (101, 11), (102, 12), (103, 13), (104, 14), (105, 15), (106, 2), (107, 200)]
        (regs [(7, 100)] s) with ie := false })
      fun s => { regs [(5, 10), (4, 11), (3, 12), (2, 13), (1, 14), (0, 15), (7, 108)] s with
        fl := 0b010, pc := 200, ie := true } := by decide

/-- C13. -/
theorem test_iret_underflow :
    Row [0x13] (fun s => cells [(237, 1)] (regs [(7, 237)] s)) fun s => raise s (.stackUnderflow 244) := by decide

/-! ### Halt and output -/

/-- H2. -/
theorem test_hlt_at_255 :
    nextState (step (placed 255 [0x01])) = some { placed 255 [0x01] with pc := 256, status := .halted } := by decide

/-- H4. -/
theorem test_prn : Row [0x47, 0] (regs [(0, 8)]) fun s => { s with out := [.printNumber 0 8], pc := 18 } := by decide

/-- H4, the text. -/
theorem test_prn_text : (OutEvent.printNumber 0 8).render = some "Register_0 has value of 8." := by decide

/-- H8. -/
theorem test_pra : Row [0x48, 1] (regs [(1, 72)]) fun s => { s with out := [.printChar 72], pc := 18 } := by decide

/-- H9. -/
theorem test_pra_zero : Row [0x48, 1] id fun s => { s with pc := 18 } := by decide

/-! ### The loop -/

/-- X1. -/
theorem test_zero_is_illegal : Row [0x00] id fun s => raise s (.illegalInstruction 16) := by decide

/-- X23. -/
theorem test_overflow_before_fetch : Row [0xFF] (regs [(7, 31)]) fun s => raise s (.stackOverflow 31) := by decide

/-- X20. -/
theorem test_no_overflow_above_top : Row [0x01] (regs [(7, 32)]) fun s => { s with pc := 17, status := .halted } := by decide

/-- X15. -/
theorem test_operand_fetch_at_254 :
    nextState (step (placed 254 [0x82, 0])) = some (raise (placed 254 [0x82, 0]) (.addressingFault 256)) := by decide

/-- X18. -/
theorem test_fetch_at_256 :
    nextState (step (placed 256 [])) = some (raise (placed 256 []) (.addressingFault 256)) := by decide

/-- X24. -/
theorem test_legality_before_operands :
    nextState (step (placed 255 [0x65])) = some (raise (placed 255 [0x65]) (.illegalInstruction 255)) := by decide

/-! ### Interrupts, deliveries, load -/

/-- I1. -/
theorem test_interrupt_entry :
    Row [0x82, 0, 5]
      (fun s => { cells [(248, 96)] (regs [(0, 10), (1, 11), (2, 12), (3, 13), (4, 14), (5, 1), (6, 1)] s) with fl := 0b100 })
      fun s => { cells [(243, 16), (242, 4), (241, 10), (240, 11), (239, 12), (238, 13), (237, 14), (236, 1)]
        (regs [(6, 0), (7, 236)] s) with ie := false, pc := 96 } := by decide

/-- I3: the lowest pending line, and only its bit. -/
theorem test_interrupt_lowest_line :
    (nextState (step (cells [(253, 128)] (regs [(5, 255), (6, 0b10100000)] (at16 [0x82, 0, 5]))))).map
      (fun s => (s.reg 6, s.reg 7, s.pc, s.byteAt 243, s.byteAt 236)) = some (0b10000000, 236, 128, 16, 255) := by decide

/-- I6: the whole entry is undone. -/
theorem test_interrupt_entry_fault :
    Row [0x82, 0, 5] (fun s => { cells [(248, 96)] (regs [(5, 1), (6, 1), (7, 3)] s) with progTop := none })
      fun s => raise s (.addressingFault 255) := by decide

/-- I4 and I5: disabled, or masked. -/
theorem test_interrupt_not_taken :
    Row [0x82, 0, 5] (fun s => { regs [(5, 1), (6, 1)] s with ie := false }) (fun s => { s.setReg 0 5 with pc := 19 }) ∧
      Row [0x82, 0, 5] (regs [(6, 255)]) (fun s => { s.setReg 0 5 with pc := 19 }) := by decide

/-- V1 and V2. -/
theorem test_deliver_timer :
    deliver .timer State.reset = State.reset.setReg 6 1 ∧
      deliver .timer (State.reset.setReg 6 1) = State.reset.setReg 6 1 := by decide

/-- V4 and V5. -/
theorem test_deliver_input :
    deliver (.input (some 66)) (cells [(244, 65)] (State.reset.setReg 6 2)) = cells [(244, 66)] (State.reset.setReg 6 2) ∧
      deliver (.input none) (cells [(244, 65)] State.reset) = State.reset.setReg 6 2 := by decide

/-- V7 and V8. -/
theorem test_events_after_end :
    deliver .timer { State.reset with status := .halted } = { State.reset with status := .halted } ∧
      stop State.reset = { State.reset with status := .stopped } := by decide

/-- A held firing is delivered in a step of its own (R38, V3). -/
theorem test_held_input :
    nextState (step (fireInput (some 65) State.reset)) = some (cells [(244, 65)] (State.reset.setReg 6 2)) := by decide

/-- L2. -/
theorem test_load :
    load [0x82, 0, 8, 0x47, 0, 1] State.reset =
      { cells [(0, 0x82), (2, 8), (3, 0x47), (5, 1)] State.reset with progTop := some 5 } := by decide

/-- L7. -/
theorem test_load_nothing :
    nextState (step (load [] State.reset)) = some (raise State.reset (.illegalInstruction 0)) := by decide

/-- The word the host stores is the next instruction that a step runs (M1 at address 0). -/
theorem test_withFetchWord :
    nextState (step (State.reset.withFetchWord 24 0x080082)) =
      some { (State.reset.withFetchWord 24 0x080082).setReg 0 8 with pc := 3 } := by decide

/-! ### Witnesses: for each obligation with hypotheses, states and operands that meet them together

The name says the obligation. Where a statement has clauses, each clause has its own conjunct, at the ends of its range. -/

/-- An outcome whose state passes a check is a next state that passes it. -/
theorem next_with {o : Host.Outcome State Fault Refusal} (p : State → Bool) (h : (nextState o).any p = true) :
    ∃ t, o = .next t ∧ p t = true := by
  cases o with
  | next s => exact ⟨s, rfl, h⟩
  | fault _ => cases h
  | refused _ => cases h

/-- The state of vector I1 with another SP. -/
def entryState (sp : Byte) : State :=
  { cells [(248, 96)] (regs [(0, 10), (1, 11), (2, 12), (3, 13), (4, 14), (5, 1), (6, 1), (7, sp)] (at16 [0x82, 0, 5])) with
    fl := 0b100, progTop := none }

/-- The state of vector C10, with a bit 3 in FL. -/
def iretState : State :=
  { cells [(236, 1), (237, 2), (238, 3), (239, 4), (240, 5), (241, 6), (242, 0b101), (243, 15)]
    (regs [(7, 236)] (at16 [0x13])) with ie := false, fl := 0b1000 }

theorem witness_ResetMeetsInvariant : Config.default.Valid ∧ ({ timerLine := 7, inputLine := 0, vtProtect := false } : Config).Valid := by
  decide

theorem witness_StepKeepsInvariant :
    (at16 [0xA0, 0, 1]).Inv ∧ (∃ t, step (at16 [0xA0, 0, 1]) = .next t ∧ decide (t.pc = 19) = true) ∧
      (∃ t, transition .iterate (at16 [0xA0, 0, 1]) = .next t ∧ decide (t.pc = 19) = true) ∧
      (∃ t, transition (.deliver (.input (some 65))) (at16 [0xA0, 0, 1]) = .next t ∧ decide (t.byteAt 244 = 65) = true) ∧
      (∃ t, transition .stop (at16 [0xA0, 0, 1]) = .next t ∧ decide (t.status = .stopped) = true) ∧
      Config.default.Valid :=
  ⟨⟨by decide, by decide, by decide, nofun⟩, next_with _ (by decide), next_with _ (by decide), next_with _ (by decide),
    next_with _ (by decide), by decide⟩

theorem witness_RunFromLoadKeepsInvariant :
    Config.default.Valid ∧ ∃ t, runKinds [.iterate, .deliver .timer, .deliver (.input (some 65)), .iterate, .stop]
      (boot Config.default [0x82, 5, 0, 0x47, 5, 1]) = .next t ∧ decide (t.status = .stopped) = true :=
  ⟨by decide, next_with _ (by decide)⟩

theorem witness_LoadWritesImage :
    256 < (List.replicate 257 (1 : Byte)).length ∧ (List.replicate 256 (1 : Byte)).length ≤ 256 ∧
      255 < (List.replicate 256 (1 : Byte)).length ∧ ([] : List Byte).length = 0 ∧ 0 < ([1] : List Byte).length := by decide

theorem witness_LongImageOverflowsAtOnce :
    (244 < (List.replicate 245 (1 : Byte)).length ∧ (List.replicate 245 (1 : Byte)).length ≤ 256) ∧
      244 < (List.replicate 256 (1 : Byte)).length ∧ (List.replicate 256 (1 : Byte)).length ≤ 256 := by decide

theorem witness_EncodeOfDecode : decode [0xA0, 0, 1, 7] = .ok (.add 0 1, [7]) ∧ decode [0x11] = .ok (.ret, []) := by decide

/-- Interrupts are masked in these states. -/
theorem noInterrupt_of_masked {s : State} (h : s.reg 5 = 0) : NoInterrupt s :=
  .inr fun n hn => by
    have := hn.1
    rw [h] at this
    simp at this

theorem witness_IllegalOpcodesStop :
    Idle (placed 255 [0x65]) ∧ NoInterrupt (placed 255 [0x65]) ∧ StackClear (placed 255 [0x65]) ∧
      (placed 255 [0x65]).pc < 256 ∧ (placed 255 [0x65]).byteAt (placed 255 [0x65]).pc ∉ legalOpcodes :=
  ⟨⟨rfl, rfl, rfl, rfl⟩, noInterrupt_of_masked (by decide), nofun, by decide, by decide⟩

theorem witness_StepRunsDecodedInstruction :
    Idle (placed 253 [0x82, 0, 5]) ∧ NoInterrupt (placed 253 [0x82, 0, 5]) ∧ StackClear (placed 253 [0x82, 0, 5]) ∧
      BytesAt (placed 253 [0x82, 0, 5]) [0x82, 0, 5] ∧ decode [0x82, 0, 5] = .ok (.ldi 0 5, []) :=
  ⟨⟨rfl, rfl, rfl, rfl⟩, noInterrupt_of_masked (by decide), nofun, ⟨by decide, by decide⟩, by decide⟩

/-- Clause by clause: SP 31 and `prog_top` 31; `pc` 256; an illegal byte at 255; operands missing at 255 and at 254. -/
theorem witness_FetchFaultsInOrder :
    (Idle (regs [(7, 31)] (at16 [0x01])) ∧ NoInterrupt (regs [(7, 31)] (at16 [0x01])) ∧
        ¬ StackClear (regs [(7, 31)] (at16 [0x01]))) ∧
      (Idle (placed 256 []) ∧ NoInterrupt (placed 256 []) ∧ StackClear (placed 256 []) ∧ 256 ≤ (placed 256 []).pc) ∧
      (Idle (placed 255 [0x65]) ∧ NoInterrupt (placed 255 [0x65]) ∧ StackClear (placed 255 [0x65]) ∧
        (placed 255 [0x65]).byteAt 255 ∉ legalOpcodes) ∧
      (Idle (placed 255 [0x47]) ∧ NoInterrupt (placed 255 [0x47]) ∧ StackClear (placed 255 [0x47]) ∧
        (placed 255 [0x47]).byteAt 255 ∈ legalOpcodes ∧ 256 ≤ 255 + ((placed 255 [0x47]).byteAt 255 >>> 6).toNat) ∧
      (Idle (placed 254 [0x82, 0]) ∧ NoInterrupt (placed 254 [0x82, 0]) ∧ StackClear (placed 254 [0x82, 0]) ∧
        (placed 254 [0x82, 0]).byteAt 254 ∈ legalOpcodes ∧
        256 ≤ 254 + ((placed 254 [0x82, 0]).byteAt 254 >>> 6).toNat) :=
  ⟨⟨⟨rfl, rfl, rfl, rfl⟩, noInterrupt_of_masked (by decide), fun h => absurd (h 31 rfl) (by decide)⟩,
    ⟨⟨rfl, rfl, rfl, rfl⟩, noInterrupt_of_masked (by decide), nofun, by decide⟩,
    ⟨⟨rfl, rfl, rfl, rfl⟩, noInterrupt_of_masked (by decide), nofun, by decide⟩,
    ⟨⟨rfl, rfl, rfl, rfl⟩, noInterrupt_of_masked (by decide), nofun, by decide, by decide⟩,
    ⟨⟨rfl, rfl, rfl, rfl⟩, noInterrupt_of_masked (by decide), nofun, by decide, by decide⟩⟩

/-- A running state and a completing instruction of each kind: an advance and a jump. -/
theorem witness_PcAdvancesOrIsSet :
    (∃ t, exec (.add 0 1) (at16 []) = .next t ∧ decide (t.status = .running) = true) ∧
      ∃ t, exec (.jmp 7) (at16 []) = .next t ∧ decide (t.status = .running) = true :=
  ⟨next_with _ (by decide), next_with _ (by decide)⟩

theorem witness_FaultKeepsStateBefore :
    (at16 [0xA4, 0, 1]).status = .running ∧
      ∃ t, step (at16 [0xA4, 0, 1]) = .next t ∧ decide (t.status = .faulted (.divisionByZero 16)) = true :=
  ⟨rfl, next_with _ (by decide)⟩

theorem witness_EndedMachineStaysEnded :
    ({ State.reset with status := .halted } : State).status = .halted ∧
      ({ State.reset with status := .stopped } : State).status = .stopped ∧
      (raise State.reset (.illegalInstruction 0)).status = .faulted (.illegalInstruction 0) := ⟨rfl, rfl, rfl⟩

/-- With SP at 244 and at both ends of what the frame may take under protection: 8 and 248; `pc` at 16 and at 255. -/
theorem witness_InterruptEntrySavesFrame :
    ∀ s ∈ [entryState 244, entryState 8, { entryState 248 with pc := 255 }],
      Idle s ∧ Memory.wf s.mem ∧ s.ie = true ∧ Eligible s 0 ∧ (∀ m, m < (0 : Fin 8) → ¬ Eligible s m) ∧ s.pc < 256 ∧
        ∀ k, k < 8 → MayWrite s (frameCell s k) := by
  intro s hs
  have hp : ∀ k, k < 8 → frameCell s k < 248 := by revert s; decide
  simp only [List.mem_cons, List.not_mem_nil, or_false] at hs
  rcases hs with rfl | rfl | rfl <;>
    exact ⟨⟨rfl, rfl, rfl, rfl⟩, by decide, rfl, ⟨by decide, by decide⟩, fun m hm => absurd hm (by simp), by decide,
      fun k hk _ => hp k hk⟩

/-- `pc` 256; SP 0 and 7; SP 249 and 255. -/
theorem witness_InterruptEntryFaults :
    ∀ s ∈ [{ entryState 244 with pc := 256 }, entryState 0, entryState 7, entryState 249, entryState 255],
      Idle s ∧ s.ie = true ∧ (∃ n, Eligible s n) ∧ s.cfg.vtProtect = true ∧
        (256 ≤ s.pc ∨ s.pc < 256 ∧ (s.reg 7).toNat < 8 ∨ s.pc < 256 ∧ 249 ≤ (s.reg 7).toNat) := by
  intro s hs
  simp only [List.mem_cons, List.not_mem_nil, or_false] at hs
  rcases hs with rfl | rfl | rfl | rfl | rfl <;>
    exact ⟨⟨rfl, rfl, rfl, rfl⟩, rfl, ⟨0, by decide, by decide⟩, rfl, by decide⟩

/-- SP 244, and 253 just above the range the statement leaves out (unprotected, so that the frame may be written). -/
theorem witness_IretRestoresInterruptedState :
    ∀ s ∈ [entryState 244, unprotected (entryState 253)],
      Idle s ∧ Memory.wf s.mem ∧ s.ie = true ∧ (∃ n, Eligible s n) ∧
        (∃ t, step s = .next t ∧ decide (t.status = .running) = true) ∧
        ¬ (245 ≤ (s.reg 7).toNat ∧ (s.reg 7).toNat ≤ 252) := by
  intro s hs
  simp only [List.mem_cons, List.not_mem_nil, or_false] at hs
  rcases hs with rfl | rfl <;>
    exact ⟨⟨rfl, rfl, rfl, rfl⟩, by decide, rfl, ⟨0, by decide, by decide⟩, next_with _ (by decide), by decide⟩

/-- An interrupt entry, and an IRET. -/
theorem witness_InterruptEnableChanges :
    ((entryState 244).ie = true ∧ ∃ t, step (entryState 244) = .next t ∧ (!t.ie) = true) ∧
      iretState.ie = false ∧ ∃ t, step iretState = .next t ∧ t.ie = true :=
  ⟨⟨rfl, next_with (fun t => !t.ie) (by decide)⟩, rfl, next_with State.ie (by decide)⟩

theorem witness_DeliverySetsPendingBit : (entryState 244).status = .running ∧ Memory.wf (entryState 244).mem :=
  ⟨rfl, by decide⟩

theorem witness_HeldEventsServedFirst :
    (requestStop State.reset).status = .running ∧ (requestStop State.reset).stopRequested = true ∧
      (fireTimer State.reset).stopRequested = false ∧ (fireTimer State.reset).timerFired = true ∧
      (fireInput (some 65) State.reset).timerFired = false ∧ (fireInput (some 65) State.reset).inputFired = some (some 65) ∧
      Idle State.reset := ⟨rfl, rfl, rfl, rfl, rfl, rfl, rfl, rfl, rfl, rfl⟩

theorem witness_RepeatedFiringsMerge : Memory.wf (entryState 244).mem := by decide

/-- IRET pops 0b101 over FL 0b1000: bit 3 is cleared. -/
theorem witness_FlagBitsClearedOnlyByIret :
    iretState.fl.getLsbD 3 = true ∧ ∃ t, step iretState = .next t ∧ (!t.fl.getLsbD 3) = true :=
  ⟨by decide, next_with (fun t => !t.fl.getLsbD 3) (by decide)⟩

/-- Bit 0 agrees, so does bit 5, and bit 3 does not. -/
theorem witness_OnlyFlagBitZeroIsRead :
    (0b11011110 : Byte).getLsbD 0 = State.reset.fl.getLsbD 0 ∧ (0b11011110 : Byte).getLsbD 5 = State.reset.fl.getLsbD 5 ∧
      (0b11011110 : Byte).getLsbD 3 ≠ State.reset.fl.getLsbD 3 := by decide

/-- A store, an interrupt entry, an input deposit: each changes a cell of a canonical memory. -/
theorem witness_MemoryWriters :
    (Memory.wf (regs [(0, 64), (1, 42)] (at16 [0x84, 0, 1])).mem ∧
        ∃ t, step (regs [(0, 64), (1, 42)] (at16 [0x84, 0, 1])) = .next t ∧
          decide (t.byteAt 64 ≠ (regs [(0, 64), (1, 42)] (at16 [0x84, 0, 1])).byteAt 64) = true) ∧
      (Memory.wf (entryState 244).mem ∧
        ∃ t, step (entryState 244) = .next t ∧ decide (t.byteAt 243 ≠ (entryState 244).byteAt 243) = true) ∧
      Memory.wf State.reset.mem ∧
        ∃ t, step (fireInput (some 65) State.reset) = .next t ∧ decide (t.byteAt 244 ≠ State.reset.byteAt 244) = true :=
  ⟨⟨by decide, next_with _ (by decide)⟩, ⟨by decide, next_with _ (by decide)⟩, by decide, next_with _ (by decide)⟩

theorem witness_VectorTableProtected :
    Memory.wf (entryState 248).mem ∧ (entryState 248).cfg.vtProtect = true ∧
      ∃ t, step (entryState 248) = .next t ∧ decide (t.byteAt 247 = 16) = true :=
  ⟨by decide, rfl, next_with _ (by decide)⟩

theorem witness_FixedDuringRun :
    ∃ t, step (regs [(0, 8)] (at16 [0x47, 0])) = .next t ∧ decide (t.out = [.printNumber 0 8]) = true :=
  next_with _ (by decide)

theorem witness_InvalidRegisterExactly :
    (Instr.add 8 9).firstInvalid = some 8 ∧ (Instr.add 7 255).firstInvalid = some 255 ∧ (Instr.add 0 7).wellFormed = true ∧
      ∃ t, exec (.add 0 7) State.reset = .next t ∧ decide (t.status = .running) = true :=
  ⟨by decide, by decide, by decide, next_with _ (by decide)⟩

/-- Operand bytes at the ends of the ranges of ChecksOne and ChecksTwo. -/
theorem witness_checks : 8 ≤ (8 : Byte).toNat ∧ 8 ≤ (255 : Byte).toNat ∧ (7 : Byte).toNat < 8 ∧ (0 : Byte).toNat < 8 := by
  decide

/-- Address 256 and 255; 248 protected and not; 247. -/
theorem witness_MemoryAccessRules :
    Memory.wf (entryState 244).mem ∧ WriteFaults (entryState 244) 248 ∧ WriteFaults (entryState 244) 255 ∧
      MayWrite (entryState 244) 247 ∧ MayWrite (unprotected (entryState 244)) 248 ∧
      MayWrite (unprotected (entryState 244)) 255 :=
  ⟨by decide, ⟨rfl, by decide⟩, ⟨rfl, by decide⟩, fun _ => by decide, nofun, nofun⟩

/-- SP 244 and 246 with protection, SP 0 without. -/
theorem witness_PushThenPop :
    ∀ s ∈ [regs [(7, 244)] (at16 []), regs [(7, 246)] (at16 []), unprotected (regs [(7, 0)] (at16 []))],
      Memory.wf s.mem ∧ (3 : Fin 8) ≠ 7 ∧ s.reg 7 ≠ 245 ∧ MayWrite s (frameCell s 0) := by
  intro s hs
  simp only [List.mem_cons, List.not_mem_nil, or_false] at hs
  rcases hs with rfl | rfl | rfl
  · exact ⟨by decide, by decide, by decide, fun _ => by decide⟩
  · exact ⟨by decide, by decide, by decide, fun _ => by decide⟩
  · exact ⟨by decide, by decide, by decide, nofun⟩

theorem witness_CallThenRet :
    Memory.wf (placed 253 [0x50, 1]).mem ∧ (placed 253 [0x50, 1]).pc + 2 < 256 ∧ (placed 253 [0x50, 1]).reg 7 ≠ 245 ∧
      MayWrite (placed 253 [0x50, 1]) (frameCell (placed 253 [0x50, 1]) 0) :=
  ⟨by decide, by decide, by decide, fun _ => by decide⟩

theorem witness_ModWritesRemainder : (regs [(1, 5)] State.reset).reg 1 ≠ 0 ∧ State.reset.reg 1 = 0 := by decide

theorem witness_EqualCompareDecidesBranches : (regs [(0, 7), (1, 7)] State.reset).reg 0 = (regs [(0, 7), (1, 7)] State.reset).reg 1 := by
  decide

/-- Counts 8 and 255. -/
theorem witness_ShiftsByWholeByte :
    8 ≤ ((regs [(1, 8)] State.reset).reg 1).toNat ∧ 8 ≤ ((regs [(1, 255)] State.reset).reg 1).toNat := by decide

/-- Address registers holding 248 and 255 (protected), 247, and 248 unprotected. -/
theorem witness_StWritesCell :
    Memory.wf (at16 []).mem ∧
      WriteFaults (regs [(0, 248)] (at16 [])) ((regs [(0, 248)] (at16 [])).reg 0).toNat ∧
      WriteFaults (regs [(0, 255)] (at16 [])) ((regs [(0, 255)] (at16 [])).reg 0).toNat ∧
      MayWrite (regs [(0, 247)] (at16 [])) ((regs [(0, 247)] (at16 [])).reg 0).toNat ∧
      MayWrite (unprotected (regs [(0, 248)] (at16 []))) ((unprotected (regs [(0, 248)] (at16 []))).reg 0).toNat :=
  ⟨by decide, ⟨rfl, by decide⟩, ⟨rfl, by decide⟩, fun _ => by decide, nofun⟩

/-- The store over the next instruction, at the last place that protection leaves (`pc` 244, target 247). -/
theorem witness_StoreSeenByNextFetch :
    let s := regs [(0, 247), (1, 1)] (placed 244 [0x84, 0, 1, 0x65])
    Idle s ∧ Memory.wf s.mem ∧ NoInterrupt s ∧ StackClear s ∧ (s.reg 0).toNat = s.pc + 3 ∧ s.reg 1 = 0x01 ∧
      MayWrite s (s.reg 0).toNat :=
  ⟨⟨rfl, rfl, rfl, rfl⟩, by decide, noInterrupt_of_masked (by decide), nofun, by decide, by decide, fun _ => by decide⟩

/-- SP 249 and 0 (protected), SP 248, and SP 0 unprotected: the pushes of PUSH and CALL. -/
theorem witness_PushWritesBelowSp :
    Memory.wf (at16 []).mem ∧
      WriteFaults (regs [(7, 249)] (at16 [])) ((regs [(7, 249)] (at16 [])).reg 7 - 1).toNat ∧
      WriteFaults (regs [(7, 0)] (at16 [])) ((regs [(7, 0)] (at16 [])).reg 7 - 1).toNat ∧
      MayWrite (regs [(7, 248)] (at16 [])) ((regs [(7, 248)] (at16 [])).reg 7 - 1).toNat ∧
      MayWrite (unprotected (regs [(7, 0)] (at16 []))) ((unprotected (regs [(7, 0)] (at16 []))).reg 7 - 1).toNat :=
  ⟨by decide, ⟨rfl, by decide⟩, ⟨rfl, by decide⟩, fun _ => by decide, nofun⟩

/-- CALL at 254, at 253, and at 16 with SP 249. -/
theorem witness_CallPushesReturnAddress :
    Memory.wf (placed 254 [0x50, 1]).mem ∧ 256 ≤ (placed 254 [0x50, 1]).pc + 2 ∧ (placed 253 [0x50, 1]).pc + 2 < 256 ∧
      MayWrite (placed 253 [0x50, 1]) ((placed 253 [0x50, 1]).reg 7 - 1).toNat ∧
      (regs [(7, 249)] (at16 [])).pc + 2 < 256 ∧
      WriteFaults (regs [(7, 249)] (at16 [])) ((regs [(7, 249)] (at16 [])).reg 7 - 1).toNat :=
  ⟨by decide, by decide, by decide, fun _ => by decide, by decide, ⟨rfl, by decide⟩⟩

/-- SP 244, 243 and 245: POP and RET. -/
theorem witness_PopReadsAtSp :
    State.reset.reg 7 = 244 ∧ (regs [(7, 243)] State.reset).reg 7 ≠ 244 ∧ (regs [(7, 245)] State.reset).reg 7 ≠ 244 := by
  decide

theorem witness_RetPopsPc : State.reset.reg 7 = 244 ∧ (regs [(7, 255)] State.reset).reg 7 ≠ 244 := by decide

/-- SP 236 and 245 complete, SP 237 and 244 underflow. -/
theorem witness_IretPopsFrame :
    ((regs [(7, 236)] State.reset).reg 7).toNat < 237 ∧ 244 < ((regs [(7, 245)] State.reset).reg 7).toNat ∧
      237 ≤ ((regs [(7, 237)] State.reset).reg 7).toNat ∧ ((regs [(7, 237)] State.reset).reg 7).toNat ≤ 244 ∧
      237 ≤ (State.reset.reg 7).toNat ∧ (State.reset.reg 7).toNat ≤ 244 := by decide

theorem witness_PraEmitsCharacter : State.reset.reg 1 = 0 ∧ (regs [(1, 72)] State.reset).reg 1 ≠ 0 := by decide

end Sys2Proof.Tests
end

section
/-! PROOFS. The encoding (spec/30_encoding.md): the operand count in an opcode's top two bits (R81), and the bytes that
are no opcode (R88). -/

namespace Sys2Proof

/-! ### The operand count -/

/-- The shift that reads `IR[7:6]` gives the operand count (R81). -/
theorem toNat_shiftRight_six (ir : Byte) : (ir >>> 6).toNat = operandCount ir := by
  rw [BitVec.toNat_ushiftRight, Nat.shiftRight_eq_div_pow, operandCount]

/-- The encoder's side of R81; the table's side is `opcodeTable_build_operands`. -/
theorem operandCount_opcode (i : Instr) : operandCount i.opcode = i.operandBytes.length := by
  cases i <;> simp [operandCount, Instr.opcode, Instr.operandBytes]

theorem operandCount_opcode_le (i : Instr) : operandCount i.opcode ≤ 2 := by
  obtain ⟨row, hrow⟩ := Option.isSome_iff_exists.mp (findRow_isSome_opcode i)
  exact operandCount_le hrow

end Sys2Proof

namespace Sys2Proof.Machine

/-! ### The fetch of an illegal opcode -/

theorem codeBytes_eq_cons {s : State} (hpc : s.pc < memSize) : ∃ more, codeBytes s = s.byteAt s.pc :: more := by
  cases h : codeBytes s with
  | nil =>
    have hl := codeBytes_length s
    rw [h, List.length_nil] at hl
    omega
  | cons b more => exact ⟨more, by rw [(codeBytes_head h).2]⟩

/-- R107: the legality of the opcode is settled whatever follows it, at address 255 too. -/
theorem fetch_illegal {s : State} (hpc : s.pc < memSize) (hrow : findRow (s.byteAt s.pc) = none) :
    fetch s = .error (.illegalInstruction s.pc) := by
  obtain ⟨more, hcode⟩ := codeBytes_eq_cons hpc
  simp only [fetch, hcode, decode_illegal hrow]

/-- Past the interrupt check and the overflow check, the fault of the fetch ends the iteration (R101). -/
theorem iterate_fetch_error {s : State} {f : Fault} (hp : pendingLine s = none) (ho : overflowed s = false)
    (hf : fetch s = .error f) : iterate s = .next (raise s f) := by
  simp only [iterate, hp, ho, hf, settle_error, Bool.false_eq_true, if_false]

end Sys2Proof.Machine

namespace Sys2Proof.Claims

open Sys2Proof.Machine

/-! ### The preconditions of an iteration, in the loop's own words -/

theorem Idle.ready {s : State} (h : Idle s) : Ready s := ⟨h.running, h.noStop, h.noTimer, h.noInput⟩

theorem noInterrupt_iff {s : State} : NoInterrupt s ↔ pendingLine s = none := by
  simp [NoInterrupt, Eligible, pendingLine_eq_none]

theorem stackClear_iff {s : State} : StackClear s ↔ overflowed s = false := by
  cases h : s.progTop <;> simp [StackClear, overflowed, h]

/-! ### The list of legal opcodes -/

theorem legalOpcodes_eq_map : legalOpcodes = opcodeTable.map OpcodeRow.opcode := rfl

theorem legalOpcodes_nodup : legalOpcodes.Nodup := by decide

/-- The decoder finds no row exactly for the bytes that are not listed (R86, R88). -/
theorem findRow_eq_none {ir : Byte} : findRow ir = none ↔ ir ∉ legalOpcodes := by
  simp [findRow, legalOpcodes_eq_map]

/-- The numbers below 256 that are legal opcodes are the listed ones, each once. -/
theorem filter_legal_perm :
    ((List.range 256).filter fun n => decide (BitVec.ofNat 8 n ∈ legalOpcodes)).Perm (legalOpcodes.map BitVec.toNat) := by
  have hinj : Function.Injective (BitVec.toNat : Byte → Nat) := fun _ _ => BitVec.eq_of_toNat_eq
  refine (List.perm_ext_iff_of_nodup (List.nodup_range.filter _) (legalOpcodes_nodup.map hinj)).mpr fun n => ?_
  simp only [List.mem_filter, List.mem_range, decide_eq_true_eq, List.mem_map]
  constructor
  · rintro ⟨hn, hmem⟩
    exact ⟨BitVec.ofNat 8 n, hmem, Nat.mod_eq_of_lt hn⟩
  · rintro ⟨b, hb, rfl⟩
    exact ⟨byte_lt b, by rwa [BitVec.ofNat_toNat, BitVec.setWidth_eq]⟩

/-- 256 values less the 24 listed ones (R88). -/
theorem length_filter_illegal :
    ((List.range 256).filter fun n => decide (BitVec.ofNat 8 n ∉ legalOpcodes)).length = 232 := by
  have hlegal := filter_legal_perm.length_eq
  have hlisted : (legalOpcodes.map BitVec.toNat).length = 24 := rfl
  have hsplit := List.length_eq_length_filter_add (l := List.range 256) fun n => decide (BitVec.ofNat 8 n ∈ legalOpcodes)
  simp only [List.length_range, ← decide_not] at hsplit
  omega

/-! ### The two obligations -/

/-- Settles O9: both lengths are the operand count, which no legal opcode has above 2. -/
theorem lengthFromTopBits : Obligations.LengthFromTopBits := by
  intro i
  have hcount := operandCount_opcode i
  have hle := operandCount_opcode_le i
  rw [toNat_shiftRight_six, encode, List.length_cons]
  exact ⟨hcount, by rw [hcount], by omega⟩

/-- Settles O11: both checks pass, so the iteration ends with the fault of the fetch, which raises it before it looks
at an operand. -/
theorem illegalOpcodesStop : Obligations.IllegalOpcodesStop := by
  refine ⟨length_filter_illegal, fun s hidle hquiet hclear hpc hillegal => ?_⟩
  have hfetch := fetch_illegal hpc (findRow_eq_none.mpr hillegal)
  rw [step_eq_iterate hidle.ready]
  exact iterate_fetch_error (noInterrupt_iff.mp hquiet) (stackClear_iff.mp hclear) hfetch

end Sys2Proof.Claims
end

section
/-! PROOFS. The invariant `State.Inv` along runs (spec/40_fetch_and_sequence.md R114): the ways a state of a sound machine
comes about, what every kind of step keeps, and the induction over a run. -/

namespace Sys2Proof.Machine

/-! ### The two ways to a sound state: no fault is recorded, or the fault recorded is one that the state shows -/

/-- What R183 says of a fault does not look at the run status. -/
theorem faultRecord_raise {s : State} {f g : Fault} : FaultRecord (raise s g) f ↔ FaultRecord s f := by
  cases f <;> rfl

theorem raise_inv {s : State} {f : Fault} (hs : s.Inv) (hf : FaultRecord s f) : (raise s f).Inv where
  memory := hs.memory
  pc := hs.pc
  config := hs.config
  faultRecord := by
    rintro g hg
    cases hg
    exact faultRecord_raise.mpr hf

theorem inv_of_safe {t : State} (hm : Memory.wf t.mem) (hpc : t.pc ≤ memSize) (hc : t.cfg.Valid) (ht : t.Safe) :
    t.Inv :=
  ⟨hm, hpc, hc, fun f hf => absurd hf (ht f)⟩

theorem safe_of_running {s : State} (h : s.status = .running) : s.Safe := fun f hf => by
  rw [h] at hf
  cases hf

/-! ### What an iteration keeps -/

theorem Completed.memory_wf {i : Instr} {s t : State} (h : Completed i s t) (hm : Memory.wf s.mem) :
    Memory.wf t.mem := by
  rcases h.mem with hmem | ⟨-, a, v, hw, hmem⟩ <;> rw [hmem]
  · exact hm
  · exact Memory.write_wf v hm (writeForbidden_eq_false.mp hw).1

/-- An instruction whose bytes lie below 256 leaves `pc` at most one past the last cell. -/
theorem Completed.pc_le {i : Instr} {s t : State} (h : Completed i s t) (hfit : s.pc + i.length ≤ memSize) :
    t.pc ≤ memSize := by
  rcases h.pc with hpc | ⟨-, hpc⟩
  · rwa [hpc]
  · exact Nat.le_of_lt hpc

theorem Completed.safe {i : Instr} {s t : State} (h : Completed i s t) (hs : s.Safe) : t.Safe := by
  intro f hf
  rw [h.status] at hf
  split at hf
  · cases hf
  · exact hs f hf

/-- A completed instruction halts the machine or leaves the status, so it records no fault of its own. -/
theorem Completed.inv {i : Instr} {s t : State} (h : Completed i s t) (hs : s.Inv) (hsafe : s.Safe)
    (hfit : s.pc + i.length ≤ memSize) : t.Inv :=
  inv_of_safe (h.memory_wf hs.memory) (h.pc_le hfit) (h.cfg ▸ hs.config) (h.safe hsafe)

/-- An interrupt entry goes to an address that is a byte, over a frame that kept memory canonical. -/
theorem interruptEntry_inv {s t : State} {n : Line} (hs : s.Inv) (hsafe : s.Safe) (h : interruptEntry s n = .ok t) :
    t.Inv := by
  obtain ⟨-, -, u, hu, rfl⟩ := interruptEntry_eq_ok hs.memory h
  have hcfg : u.cfg = s.cfg := by rw [hu.shape]; rfl
  have hstatus : u.status = s.status := by rw [hu.shape]; rfl
  exact inv_of_safe hu.wf (Nat.le_of_lt (byte_lt _)) (hcfg ▸ hs.config) fun f hf => hsafe f (hstatus ▸ hf)

theorem IterateCase.inv {s t : State} (hc : IterateCase s t) (hs : s.Inv) (hsafe : s.Safe) : t.Inv := by
  cases hc with
  | interrupt n _ ht => exact interruptEntry_inv hs hsafe ht
  | instruction i _ _ hf _ ht =>
    obtain ⟨-, -, hfit⟩ := fetch_eq_ok hf
    exact ht.inv hs hsafe hfit
  | fault f ht hf => exact ht ▸ raise_inv hs hf

/-! ### What a step of any kind keeps -/

/-- A pending bit raised in a machine that has not faulted keeps the invariant; R6 is no part of it. -/
theorem raiseLine_inv {s : State} (n : Line) (hs : s.Inv) (hsafe : s.Safe) : (raiseLine s n).Inv :=
  inv_of_safe hs.memory hs.pc hs.config hsafe

/-- The deposit of an input byte falls on a cell, 244 (20_memory.md R60). -/
theorem deposit_inv {s : State} (v : Byte) (hs : s.Inv) (hsafe : s.Safe) :
    State.Inv { s with mem := Memory.write s.mem keyAddr v } :=
  inv_of_safe (Memory.write_wf v hs.memory (by decide)) hs.pc hs.config hsafe

/-- The step lemma: a step of every kind that the environment may choose keeps the invariant (R114). -/
theorem transition_inv {k : StepKind} {s t : State} (hs : s.Inv) (h : transition k s = .next t) : t.Inv := by
  cases transition_cases h with
  | ended _ ht => exact ht ▸ hs
  | stop _ ht => exact ht ▸ inv_of_safe hs.memory hs.pc hs.config nofun
  | timer hrun ht => exact ht ▸ raiseLine_inv _ hs (safe_of_running hrun)
  | input hrun ht =>
    have hsafe := safe_of_running hrun
    exact ht ▸ raiseLine_inv _ (deposit_inv _ hs hsafe) hsafe
  | iterate hrun hc => exact hc.inv hs (safe_of_running hrun)

/-! ### Where a run begins -/

theorem resetWith_inv {c : Config} (hc : c.Valid) : (State.resetWith c).Inv :=
  inv_of_safe Memory.wf_nil (Nat.zero_le _) hc nofun

/-- A load puts the image into a machine that has not faulted, or refuses it with ProgramTooLarge, whose record is the
image's length (70_reset_and_hazards.md R226, R227). -/
theorem load_inv {s : State} (image : List Byte) (hs : s.Inv) (hsafe : s.Safe) : (load image s).Inv := by
  simp only [load]
  split
  · exact raise_inv hs ‹_›
  · exact inv_of_safe (Memory.store_wf image 0 hs.memory) hs.pc hs.config hsafe

theorem boot_inv {c : Config} (image : List Byte) (hc : c.Valid) : (boot c image).Inv :=
  load_inv image (resetWith_inv hc) nofun

/-! ### A run -/

theorem runKinds_cons_eq_next {k : StepKind} {ks : List StepKind} {s t : State} :
    runKinds (k :: ks) s = .next t ↔ ∃ u, transition k s = .next u ∧ runKinds ks u = .next t := by
  cases h : transition k s <;> simp [runKinds, h]

/-- What steps of every kind keep holds at the end of a run, if it holds at its beginning. -/
theorem runKinds_keeps {P : State → Prop} (hstep : ∀ k s t, P s → transition k s = .next t → P t)
    {ks : List StepKind} {s t : State} (hs : P s) (h : runKinds ks s = .next t) : P t := by
  induction ks generalizing s with
  | nil =>
    cases h
    exact hs
  | cons k ks ih =>
    obtain ⟨u, hu, h⟩ := runKinds_cons_eq_next.mp h
    exact ih (hstep k s u hs hu) h

end Sys2Proof.Machine

namespace Sys2Proof.Claims

open Sys2Proof.Machine

/-- Settles O4: the load of any image starts from the invariant, and induction over the steps chosen keeps it. -/
theorem runFromLoadKeepsInvariant : Obligations.RunFromLoadKeepsInvariant := by
  intro c image ks t hc h
  exact runKinds_keeps (P := State.Inv) (fun _ _ _ => transition_inv) (boot_inv image hc) h

end Sys2Proof.Claims
end

section
/-! PROOFS. The ALU instructions with two register operands (spec/41_arithmetic.md R120): the order of their register
checks, what one does to registers that exist, and with these ADD (R121) and MUL (R122). -/

namespace Sys2Proof.Machine

/-! ### An ALU instruction, by what its operation gives -/

theorem aluInstruction_of_ok {op : AluOp} {dest : Byte} {src : AluSource} {s t : State} (len : Nat)
    (h : aluApply op dest src s = .ok t) : aluInstruction op dest src len s = .next (applyControl t (.advance len)) := by
  simp only [aluInstruction, h, ok_bind, pure_eq_ok, complete_ok]

theorem aluInstruction_of_error {op : AluOp} {dest : Byte} {src : AluSource} {s : State} {f : Fault} (len : Nat)
    (h : aluApply op dest src s = .error f) : aluInstruction op dest src len s = .next (raise s f) := by
  simp only [aluInstruction, h, error_bind, complete_error]

/-! ### The register checks -/

/-- The destination is read first, so its check comes before any look at the source (R120). -/
theorem aluApply_invalid_dest (op : AluOp) {dest : Byte} (src : AluSource) (s : State) (h : 8 ≤ dest.toNat) :
    aluApply op dest src s = .error (.invalidRegister dest) := by
  simp only [aluApply, readReg_invalid s h, error_bind]

theorem aluApply_invalid_source (op : AluOp) (r : Fin 8) {b : Byte} (s : State) (h : 8 ≤ b.toNat) :
    aluApply op (regIndex r) (.register b) s = .error (.invalidRegister b) := by
  simp only [aluApply, readSource, readReg_regIndex, ok_bind, readReg_invalid s h, error_bind]

/-! ### The two operations, on registers that exist -/

theorem aluApply_add (s : State) (a b : Fin 8) :
    aluApply .add (regIndex a) (.register (regIndex b)) s = .ok (s.setReg a (addBytes (s.reg a) (s.reg b))) := by
  simp only [aluApply, readSource, readReg_regIndex, ok_bind, writeReg_regIndex]

theorem aluApply_multiply (s : State) (a b : Fin 8) :
    aluApply .multiply (regIndex a) (.register (regIndex b)) s = .ok (s.setReg a (mulBytes (s.reg a) (s.reg b))) := by
  simp only [aluApply, readSource, readReg_regIndex, ok_bind, writeReg_regIndex]

theorem addBytes_toNat (va vb : Byte) : (addBytes va vb).toNat = (va.toNat + vb.toNat) % 256 :=
  BitVec.toNat_ofNat ..

theorem mulBytes_toNat (va vb : Byte) : (mulBytes va vb).toNat = (va.toNat * vb.toNat) % 256 :=
  BitVec.toNat_ofNat ..

end Sys2Proof.Machine

namespace Sys2Proof.Claims

open Sys2Proof.Machine

/-! ### The words of the statements, for a write of one register and for the ALU -/

theorem hostKept_advance_setReg (s : State) (r : Fin 8) (v : Byte) (len : Nat) :
    HostKept s (applyControl (s.setReg r v) (.advance len)) := ⟨rfl, rfl, rfl, rfl, rfl⟩

theorem controlKept_advance_setReg (s : State) (r : Fin 8) (v : Byte) (len : Nat) :
    ControlKept s (applyControl (s.setReg r v) (.advance len)) := ⟨rfl, rfl, rfl, rfl⟩

/-- A register replaced and `pc` advanced: the frame of every instruction that ends so. -/
theorem frame_advance_setReg (s : State) (r : Fin 8) (v : Byte) (len : Nat) :
    Frame [r] [] s (applyControl (s.setReg r v) (.advance len)) where
  registers q hq := by
    rw [applyControl_reg, State.setReg_reg_other s v (List.ne_of_not_mem_cons hq)]
  memory addr _ := by rw [applyControl_byteAt, State.setReg_byteAt]
  host := hostKept_advance_setReg s r v len

theorem writesRegister_of_exec {i : Instr} {s : State} {r : Fin 8} {v : Byte} {len : Nat}
    (h : exec i s = .next (applyControl (s.setReg r v) (.advance len))) :
    ∃ t, WritesRegister i s t r len ∧ t.reg r = v :=
  ⟨_, ⟨h, applyControl_advance_pc _ _, frame_advance_setReg s r v len, controlKept_advance_setReg s r v len⟩, by
    rw [applyControl_reg, State.setReg_reg_same]⟩

/-- An instruction that runs an ALU operation completes as that operation does. -/
theorem writesRegister_of_alu {i : Instr} {op : AluOp} {dest : Byte} {src : AluSource} {s : State} {r : Fin 8} {v : Byte}
    {len : Nat} (hexec : exec i s = aluInstruction op dest src len s) (h : aluApply op dest src s = .ok (s.setReg r v)) :
    ∃ t, WritesRegister i s t r len ∧ t.reg r = v :=
  writesRegister_of_exec (hexec.trans (aluInstruction_of_ok len h))

theorem stopsWith_of_alu {i : Instr} {op : AluOp} {dest : Byte} {src : AluSource} {s : State} {f : Fault} {len : Nat}
    (hexec : exec i s = aluInstruction op dest src len s) (h : aluApply op dest src s = .error f) : StopsWith i s f :=
  hexec.trans (aluInstruction_of_error len h)

/-- Every ALU instruction with two register operands checks them in operand order, whatever its operation. -/
theorem checksTwo_of_alu {i : Instr} {op : AluOp} {a b : Byte} {s : State} {len : Nat}
    (hexec : exec i s = aluInstruction op a (.register b) len s) : ChecksTwo i a b s := by
  refine ⟨fun ha => stopsWith_of_alu hexec (aluApply_invalid_dest op _ s ha), fun ha hb => ?_⟩
  obtain ⟨r, rfl⟩ := exists_regIndex ha
  exact stopsWith_of_alu hexec (aluApply_invalid_source op r s hb)

/-! ### The two obligations -/

/-- Settles O33: the checks are those of every ALU instruction, and `wrap8` of the sum is the sum modulo 256. -/
theorem addWritesSum : Obligations.AddWritesSum := by
  refine fun s => ⟨fun a b => ⟨rfl, checksTwo_of_alu (op := .add) rfl⟩, fun a b => ?_⟩
  obtain ⟨t, ht, hreg⟩ := writesRegister_of_alu (i := .add (regIndex a) (regIndex b)) rfl (aluApply_add s a b)
  exact ⟨t, ht, by rw [hreg, addBytes_toNat]⟩

/-- Settles O34: as O33, with the product. -/
theorem mulWritesLowByte : Obligations.MulWritesLowByte := by
  refine fun s => ⟨fun a b => ⟨rfl, checksTwo_of_alu (op := .multiply) rfl⟩, fun a b => ?_⟩
  obtain ⟨t, ht, hreg⟩ := writesRegister_of_alu (i := .mul (regIndex a) (regIndex b)) rfl (aluApply_multiply s a b)
  exact ⟨t, ht, by rw [hreg, mulBytes_toNat]⟩

end Sys2Proof.Claims
end

section
/-! PROOFS. The bitwise operations AND, OR, XOR (spec/42_bitwise.md R131..R133) and NOT (R134), on the facts of every ALU
instruction (R120). -/

namespace Sys2Proof.Machine

/-! ### The four operations, on registers that exist -/

theorem aluApply_and (s : State) (a b : Fin 8) :
    aluApply .and (regIndex a) (.register (regIndex b)) s = .ok (s.setReg a (s.reg a &&& s.reg b)) := by
  simp only [aluApply, readSource, readReg_regIndex, ok_bind, writeReg_regIndex]

theorem aluApply_or (s : State) (a b : Fin 8) :
    aluApply .or (regIndex a) (.register (regIndex b)) s = .ok (s.setReg a (s.reg a ||| s.reg b)) := by
  simp only [aluApply, readSource, readReg_regIndex, ok_bind, writeReg_regIndex]

theorem aluApply_xor (s : State) (a b : Fin 8) :
    aluApply .xor (regIndex a) (.register (regIndex b)) s = .ok (s.setReg a (s.reg a ^^^ s.reg b)) := by
  simp only [aluApply, readSource, readReg_regIndex, ok_bind, writeReg_regIndex]

theorem aluApply_not (s : State) (a : Fin 8) :
    aluApply .not (regIndex a) .unary s = .ok (s.setReg a (notByte (s.reg a))) := by
  simp only [aluApply, readSource, readReg_regIndex, ok_bind, writeReg_regIndex]

/-! ### 255 minus a byte -/

theorem notByte_toNat (va : Byte) : (notByte va).toNat = 255 - va.toNat := by
  rw [notByte, BitVec.toNat_ofNat]
  omega

/-- The two readings of R134 agree: 255 minus a byte is the byte with every bit inverted. -/
theorem notByte_eq_not (va : Byte) : notByte va = ~~~va :=
  BitVec.eq_of_toNat_eq (by simp only [notByte_toNat, BitVec.toNat_not, Nat.reducePow, Nat.reduceSub])

theorem getLsbD_notByte (va : Byte) {k : Nat} (hk : k < 8) : (notByte va).getLsbD k = !va.getLsbD k := by
  rw [notByte_eq_not, BitVec.getLsbD_not, decide_eq_true hk, Bool.true_and]

end Sys2Proof.Machine

namespace Sys2Proof.Claims

open Sys2Proof.Machine

/-- Every ALU instruction checks its destination register, wherever its second operand comes from. -/
theorem checksOne_of_alu {i : Instr} {op : AluOp} {a : Byte} {src : AluSource} {s : State} {len : Nat}
    (hexec : exec i s = aluInstruction op a src len s) : ChecksOne i a s :=
  fun ha => stopsWith_of_alu hexec (aluApply_invalid_dest op src s ha)

/-- An ALU instruction's destination ends with the bits of the byte that its operation writes. -/
theorem writesBits_of_alu {i : Instr} {op : AluOp} {dest : Byte} {src : AluSource} {s : State} {r : Fin 8} {v : Byte}
    {len : Nat} {bits : Nat → Bool} (hexec : exec i s = aluInstruction op dest src len s)
    (h : aluApply op dest src s = .ok (s.setReg r v)) (hbits : ∀ k, v.getLsbD k = bits k) :
    ∃ t, WritesRegister i s t r len ∧ ∀ k, (t.reg r).getLsbD k = bits k := by
  obtain ⟨t, ht, hreg⟩ := writesRegister_of_alu hexec h
  exact ⟨t, ht, fun k => by rw [hreg, hbits]⟩

/-! ### The two obligations -/

/-- Settles O39: the checks are those of every ALU instruction, and each operation on bytes is the operation on their bits. -/
theorem bitwiseBinary : Obligations.BitwiseBinary := by
  refine fun s => ⟨fun a b => ⟨rfl, rfl, rfl, checksTwo_of_alu (op := .and) rfl, checksTwo_of_alu (op := .or) rfl,
    checksTwo_of_alu (op := .xor) rfl⟩, fun a b => ⟨?_, ?_, ?_⟩⟩
  · exact writesBits_of_alu rfl (aluApply_and s a b) fun _ => BitVec.getLsbD_and
  · exact writesBits_of_alu rfl (aluApply_or s a b) fun _ => BitVec.getLsbD_or
  · exact writesBits_of_alu rfl (aluApply_xor s a b) fun _ => BitVec.getLsbD_xor

/-- Settles O40: the byte written is 255 minus the old one, which is the old one's complement. -/
theorem notWritesComplement : Obligations.NotWritesComplement := by
  refine fun s => ⟨fun a => ⟨rfl, checksOne_of_alu (op := .not) (src := .unary) rfl⟩, fun a => ?_⟩
  obtain ⟨t, ht, hreg⟩ := writesRegister_of_alu (i := .not (regIndex a)) rfl (aluApply_not s a)
  exact ⟨t, ht, by rw [hreg, notByte_toNat], fun k hk => by rw [hreg, getLsbD_notByte _ hk]⟩

end Sys2Proof.Claims
end

section
/-! PROOFS. The loads (spec/43_memory_access.md): LDI of an immediate byte (R141) and LD through an address register
(R142). -/

namespace Sys2Proof.Machine

/-! ### The address register -/

theorem effectiveAddress_regIndex (s : State) (r : Fin 8) : effectiveAddress s (regIndex r) = .ok (s.reg r).toNat := by
  simp only [effectiveAddress, readReg_regIndex, ok_bind, pure_eq_ok]

theorem effectiveAddress_invalid (s : State) {b : Byte} (h : 8 ≤ b.toNat) :
    effectiveAddress s b = .error (.invalidRegister b) := by
  simp only [effectiveAddress, readReg_invalid s h, error_bind]

/-! ### LDI -/

theorem execLdi_regIndex (s : State) (a : Fin 8) (v : Byte) :
    execLdi (regIndex a) v s = .next (applyControl (s.setReg a v) (.advance 3)) := by
  simp only [execLdi, writeReg_regIndex, ok_bind, pure_eq_ok, complete_ok]

theorem execLdi_invalid (s : State) {a : Byte} (v : Byte) (h : 8 ≤ a.toNat) :
    execLdi a v s = .next (raise s (.invalidRegister a)) := by
  simp only [execLdi, writeReg_invalid s v h, error_bind, complete_error]

/-! ### LD -/

/-- The address is a byte, so on registers that exist the read cannot fault (R55). -/
theorem execLd_regIndex (s : State) (a b : Fin 8) :
    execLd (regIndex a) (regIndex b) s =
      .next (applyControl (s.setReg a (s.byteAt (s.reg b).toNat)) (.advance 3)) := by
  simp only [execLd, checkReg_regIndex, effectiveAddress_regIndex, memRead_byte, writeReg_regIndex, ok_bind, pure_eq_ok,
    complete_ok]

/-- The destination is checked before any look at the address register. -/
theorem execLd_invalid_dest (s : State) {a : Byte} (b : Byte) (h : 8 ≤ a.toNat) :
    execLd a b s = .next (raise s (.invalidRegister a)) := by
  simp only [execLd, checkReg_invalid h, error_bind, complete_error]

theorem execLd_invalid_address (s : State) (a : Fin 8) {b : Byte} (h : 8 ≤ b.toNat) :
    execLd (regIndex a) b s = .next (raise s (.invalidRegister b)) := by
  simp only [execLd, checkReg_regIndex, effectiveAddress_invalid s h, ok_bind, error_bind, complete_error]

end Sys2Proof.Machine

namespace Sys2Proof.Claims

open Sys2Proof.Machine

theorem checksTwo_ld (a b : Byte) (s : State) : ChecksTwo (.ld a b) a b s := by
  refine ⟨fun ha => execLd_invalid_dest s b ha, fun ha hb => ?_⟩
  obtain ⟨r, rfl⟩ := exists_regIndex ha
  exact execLd_invalid_address s r hb

/-! ### The two obligations -/

/-- Settles O42: the write of the destination register is LDI's only check and, but for `pc`, its only effect. -/
theorem ldiWritesImmediate : Obligations.LdiWritesImmediate :=
  fun s v => ⟨fun _ => ⟨rfl, fun ha => execLdi_invalid s v ha⟩, fun a => writesRegister_of_exec (execLdi_regIndex s a v)⟩

/-- Settles O43: the checks come in operand order, and the cell is read in the state before the write, so LD of a register
through itself is no special case. -/
theorem ldReadsCell : Obligations.LdReadsCell :=
  fun s => ⟨fun a b => ⟨rfl, checksTwo_ld a b s⟩, fun a b => writesRegister_of_exec (execLd_regIndex s a b)⟩

end Sys2Proof.Claims
end

section
/-! PROOFS. JMP (spec/44_branch.md R151), on what every instruction that changes nothing but `pc` leaves. -/

namespace Sys2Proof.Machine

theorem execJmp_regIndex (s : State) (a : Fin 8) :
    execJmp (regIndex a) s = .next (applyControl s (.jumpTo (s.reg a))) := by
  simp only [execJmp, readReg_regIndex, ok_bind, pure_eq_ok, complete_ok]

theorem execJmp_invalid (s : State) {a : Byte} (h : 8 ≤ a.toNat) :
    execJmp a s = .next (raise s (.invalidRegister a)) := by
  simp only [execJmp, readReg_invalid s h, error_bind, complete_error]

end Sys2Proof.Machine

namespace Sys2Proof.Claims

open Sys2Proof.Machine

/-! ### The words of the statements, for an instruction that only moves `pc` -/

theorem frame_applyControl (s : State) (c : ControlAction) : Frame [] [] s (applyControl s c) where
  registers r _ := applyControl_reg s c r
  memory addr _ := applyControl_byteAt s c addr
  host := ⟨applyControl_cfg s c, applyControl_progTop s c, applyControl_timerFired s c, applyControl_inputFired s c,
    applyControl_stopRequested s c⟩

/-- Of the control actions, only a halt changes the run status. -/
theorem controlKept_applyControl {s : State} {c : ControlAction} (hc : (applyControl s c).status = s.status) :
    ControlKept s (applyControl s c) :=
  ⟨applyControl_fl s c, applyControl_ie s c, hc, applyControl_out s c⟩

/-- An instruction that hands the state on as it was, with an advance or a jump, changes nothing but `pc`. -/
theorem onlySetsPc_of_exec {i : Instr} {s : State} {c : ControlAction} (h : exec i s = .next (applyControl s c))
    (hc : (applyControl s c).status = s.status) : OnlySetsPc i s (applyControl s c) (applyControl s c).pc :=
  ⟨h, rfl, frame_applyControl s c, controlKept_applyControl hc⟩

/-! ### The obligation -/

/-- Settles O48: the read of the register is JMP's only check, and its value, a byte, is the next `pc`. -/
theorem jmpSetsPc : Obligations.JmpSetsPc := by
  refine fun s => ⟨fun a => ⟨rfl, fun ha => execJmp_invalid s ha⟩, fun a => ?_⟩
  have hjump : exec (.jmp (regIndex a)) s = .next (applyControl s (.jumpTo (s.reg a))) := execJmp_regIndex s a
  exact ⟨_, onlySetsPc_of_exec hjump (applyControl_jumpTo_status s _)⟩

end Sys2Proof.Claims
end

section
/-! PROOFS. HLT (spec/46_halt_and_output.md R170), on what a halted machine does (R113, R114). -/

namespace Sys2Proof.Machine

theorem step_halted {s : State} (hs : s.status = .halted) : step s = .next s := by
  simp only [step, nextStep, hs]

theorem transition_halted (k : StepKind) {s : State} (hs : s.status = .halted) : transition k s = .next s := by
  simp only [transition, hs]

theorem execHlt_eq (s : State) : execHlt s = .next (applyControl s .halt) := complete_ok s s .halt

end Sys2Proof.Machine

namespace Sys2Proof.Claims

open Sys2Proof.Machine

/-- Settles O53: HLT makes only the halting control action, and every kind of step leaves a halted machine as it is. -/
theorem hltHalts : Obligations.HltHalts := by
  intro s
  have hexec : exec .hlt s = .next (applyControl s .halt) := execHlt_eq s
  have hhalted : (applyControl s .halt).status = .halted := applyControl_halt_status s
  exact ⟨rfl, _, hexec, applyControl_halt_pc s, hhalted, applyControl_fl s _, applyControl_ie s _, applyControl_out s _,
    frame_applyControl s _, step_halted hhalted, fun k => transition_halted k hhalted⟩

end Sys2Proof.Claims
end

section
/-! PROOFS. The taking of an interrupt (spec/60_exceptions.md R202): the line taken, what the start of the entry and the
eight pushes change and keep, and the entry as a whole. -/

namespace Sys2Proof.Machine

/-- The mask of an entry on line `n` clears that line's bit of IS, and no other. -/
theorem getLsbD_and_clearLine (b : Byte) (n k : Line) :
    (b &&& (255 - lineBit n)).getLsbD k = (decide (k ≠ n) && b.getLsbD k) := by
  have hmask : (255 - lineBit n).getLsbD k = decide (k ≠ n) := by revert n k; decide
  rw [BitVec.getLsbD_and, hmask, Bool.and_comm]

theorem entryStart_reg_status (s : State) (n : Line) :
    (entryStart s n).reg 6 = s.reg 6 &&& (255 - lineBit n) :=
  State.setReg_reg_same _ 6 _

theorem entryStart_reg_other (s : State) (n : Line) {r : Fin 8} (h : r ≠ 6) : (entryStart s n).reg r = s.reg r :=
  State.setReg_reg_other { s with ie := false } _ h

theorem Pushed.reg_sp {s t : State} {vs : List Byte} (h : Pushed s t vs) :
    t.reg 7 = s.reg 7 - BitVec.ofNat 8 vs.length := by
  rw [h.shape]
  exact State.setReg_reg_same s 7 _

theorem Pushed.reg_other {s t : State} {vs : List Byte} (h : Pushed s t vs) {r : Fin 8} (hr : r ≠ 7) :
    t.reg r = s.reg r := by
  rw [h.shape]
  exact State.setReg_reg_other s _ hr

end Sys2Proof.Machine

namespace Sys2Proof.Claims

open Sys2Proof.Machine

/-! ### The words of the statements, in the laws' own words -/

theorem frameCell_eq_pushCell (s : State) (k : Nat) : frameCell s k = pushCell s.sp k := rfl

theorem writeForbidden_of_mayWrite {s : State} {addr : Nat} (haddr : addr < memSize) (h : MayWrite s addr) :
    writeForbidden s addr = false :=
  writeForbidden_eq_false.mpr ⟨haddr, h⟩

theorem pendingLine_eq_some_iff_eligible {s : State} {n : Line} :
    pendingLine s = some n ↔ s.ie = true ∧ Eligible s n ∧ ∀ m, m < n → ¬ Eligible s m := by
  simp [pendingLine_eq_some, Eligible]

/-! ### Frames -/

/-- What neither of two changes touches is unchanged by both. -/
theorem Frame.trans {s t u : State} {regs₁ regs₂ : List (Fin 8)} {cells₁ cells₂ : List Nat}
    (h₁ : Frame regs₁ cells₁ s t) (h₂ : Frame regs₂ cells₂ t u) : Frame (regs₁ ++ regs₂) (cells₁ ++ cells₂) s u where
  registers r hr := by
    rw [List.mem_append, not_or] at hr
    rw [h₂.registers r hr.2, h₁.registers r hr.1]
  memory addr ha := by
    rw [List.mem_append, not_or] at ha
    rw [h₂.memory addr ha.2, h₁.memory addr ha.1]
  host := ⟨h₂.host.cfg.trans h₁.host.cfg, h₂.host.progTop.trans h₁.host.progTop,
    h₂.host.timerFired.trans h₁.host.timerFired, h₂.host.inputFired.trans h₁.host.inputFired,
    h₂.host.stopRequested.trans h₁.host.stopRequested⟩

theorem frame_entryStart (s : State) (n : Line) : Frame [6] [] s (entryStart s n) where
  registers r hr := entryStart_reg_other s n (by simpa using hr)
  memory _ _ := rfl
  host := ⟨rfl, rfl, rfl, rfl, rfl⟩

theorem frame_of_pushed {s t : State} {vs : List Byte} (h : Pushed s t vs) :
    Frame [7] ((List.range vs.length).map (frameCell s)) s t where
  registers r hr := h.reg_other (by simpa using hr)
  memory addr ha := h.others addr fun k hk he =>
    ha (List.mem_map.mpr ⟨k, List.mem_range.mpr hk, (frameCell_eq_pushCell s k).trans he.symm⟩)
  host := by
    rw [h.shape]
    exact ⟨rfl, rfl, rfl, rfl, rfl⟩

theorem controlKept_of_pushed {s t : State} {vs : List Byte} (h : Pushed s t vs) : ControlKept s t := by
  rw [h.shape]
  exact ⟨rfl, rfl, rfl, rfl⟩

/-! ### The entry -/

/-- The three parts of an entry together: its start changes R6, the pushes change SP and their cells, and the jump to the
vector changes `pc` alone. -/
theorem frame_entry {s u : State} {n : Line} (hu : Pushed (entryStart s n) u (frameBytes s)) (vector : Byte) :
    Frame [6, 7] ((List.range 8).map (frameCell s)) s (applyControl u (.jumpTo vector)) := by
  have hcells : frameCell (entryStart s n) = frameCell s := by
    funext k
    rw [frameCell_eq_pushCell, entryStart_sp, frameCell_eq_pushCell]
  have hpushed := frame_of_pushed hu
  rw [hcells, frameBytes_length] at hpushed
  have hall := ((frame_entryStart s n).trans hpushed).trans (frame_applyControl u (.jumpTo vector))
  rwa [List.append_nil, List.append_nil] at hall

/-- The lowest eligible line is taken in one step, which saves the frame and goes to the vector read after the pushes. -/
theorem step_eq_entry {s : State} {n : Line} (hidle : Idle s) (hm : Memory.wf s.mem) (hn : pendingLine s = some n)
    (hpc : s.pc < memSize) (hw : ∀ k, k < 8 → MayWrite s (frameCell s k)) :
    ∃ u, Pushed (entryStart s n) u (frameBytes s) ∧
      step s = .next (applyControl u (.jumpTo (u.byteAt (vtBase + n.val)))) := by
  have hcells : ∀ k, k < 8 → writeForbidden s (pushCell s.sp k) = false := fun k hk =>
    writeForbidden_of_mayWrite (pushCell_lt s.sp k) (hw k hk)
  obtain ⟨u, hu, hentry⟩ := interruptEntry_ok hm hpc hcells
  refine ⟨u, hu, ?_⟩
  rw [step_eq_iterate hidle.ready]
  simp only [iterate, hn, hentry, settle_ok]
  rfl

/-- Settles O17: the step is the entry on the line the interrupt check takes; the pushes give the eight cells, the start
of the entry gives `ie` and IS, and the jump gives `pc`. -/
theorem interruptEntrySavesFrame : Obligations.InterruptEntrySavesFrame := by
  intro s n hidle hm hie heligible hlowest hpc hw
  have hline : pendingLine s = some n := pendingLine_eq_some_iff_eligible.mpr ⟨hie, heligible, hlowest⟩
  obtain ⟨u, hu, hstep⟩ := step_eq_entry hidle hm hline hpc hw
  have hcontrol := controlKept_of_pushed hu
  have hcell : ∀ k : Fin 8, u.byteAt (frameCell s k) = (frameBytes s)[k] := fun k => by
    rw [frameCell_eq_pushCell, ← entryStart_sp s n]
    exact hu.cells k k.isLt
  have hsp : u.reg 7 = s.reg 7 - 8 := by
    rw [hu.reg_sp, entryStart_reg_other s n (by decide)]
    rfl
  have hstatus : ∀ k : Line, (u.reg 6).getLsbD k = (decide (k ≠ n) && (s.reg 6).getLsbD k) := fun k => by
    rw [hu.reg_other (by decide), entryStart_reg_status, getLsbD_and_clearLine]
  have hsavedPc : (u.byteAt (frameCell s 0)).toNat = s.pc := by
    rw [show u.byteAt (frameCell s 0) = BitVec.ofNat 8 s.pc from hcell 0]
    exact Nat.mod_eq_of_lt hpc
  exact ⟨_, hstep, hcontrol.ie, hsp, hstatus, hsavedPc, hcell 1, hcell 2, hcell 3, hcell 4, hcell 5, hcell 6,
    hcell 7, rfl, hcontrol.fl, hcontrol.status, hcontrol.out, frame_entry hu _⟩

end Sys2Proof.Claims
end

section
/-! PROOFS. The decoder and the encoder undo each other (spec/30_encoding.md R80..R93). -/

namespace Sys2Proof

/-! ### The rows of the table -/

/-- Every instruction is built by the row of its opcode; the 24 cases are the laws of `Laws.OpcodeRow`. -/
theorem opcodeRow_statement (i : Instr) : Laws.OpcodeRow.Statement i := by
  cases i with
  | ldi a v => exact Laws.OpcodeRow.ldi a v
  | prn a => exact Laws.OpcodeRow.prn a
  | hlt => exact Laws.OpcodeRow.hlt
  | mul a b => exact Laws.OpcodeRow.mul a b
  | add a b => exact Laws.OpcodeRow.add a b
  | push a => exact Laws.OpcodeRow.push a
  | pop a => exact Laws.OpcodeRow.pop a
  | jmp a => exact Laws.OpcodeRow.jmp a
  | st a b => exact Laws.OpcodeRow.st a b
  | pra a => exact Laws.OpcodeRow.pra a
  | ld a b => exact Laws.OpcodeRow.ld a b
  | call a => exact Laws.OpcodeRow.call a
  | ret => exact Laws.OpcodeRow.ret
  | iret => exact Laws.OpcodeRow.iret
  | cmp a b => exact Laws.OpcodeRow.cmp a b
  | jeq a => exact Laws.OpcodeRow.jeq a
  | jne a => exact Laws.OpcodeRow.jne a
  | and a b => exact Laws.OpcodeRow.and a b
  | or a b => exact Laws.OpcodeRow.or a b
  | xor a b => exact Laws.OpcodeRow.xor a b
  | not a => exact Laws.OpcodeRow.not a
  | shl a b => exact Laws.OpcodeRow.shl a b
  | shr a b => exact Laws.OpcodeRow.shr a b
  | mod a b => exact Laws.OpcodeRow.mod a b

/-- The operand bytes of what a row builds are the bytes it was given, as many as its format has (R83). -/
theorem opcodeTable_build_operandBytes {row : OpcodeRow} (h : row ∈ opcodeTable) (a b : Byte) :
    (row.build a b).operandBytes = [a, b].take (operandCount row.opcode) := by
  simp only [opcodeTable, List.cons_append, List.nil_append, List.mem_cons, List.not_mem_nil, or_false] at h
  rcases h with rfl | rfl | rfl | rfl | rfl | rfl | rfl | rfl | rfl | rfl | rfl | rfl | rfl | rfl | rfl | rfl | rfl |
    rfl | rfl | rfl | rfl | rfl | rfl | rfl <;> rfl

theorem encode_build {ir : Byte} {row : OpcodeRow} (h : findRow ir = some row) (a b : Byte) :
    encode (row.build a b) = ir :: [a, b].take (operandCount ir) := by
  obtain ⟨hmem, hop⟩ := findRow_eq_some h
  rw [encode, findRow_build h, opcodeTable_build_operandBytes hmem, hop]

/-! ### The decoder, by the operand count -/

section
variable {ir : Byte} {row : OpcodeRow} (hrow : findRow ir = some row)
include hrow

theorem decode_zero_operands (h : operandCount ir = 0) (rest : List Byte) :
    decode (ir :: rest) = .ok (row.build 0 0, rest) := by
  simp only [decode, hrow, h]

theorem decode_one_operand (h : operandCount ir = 1) (a : Byte) (rest : List Byte) :
    decode (ir :: a :: rest) = .ok (row.build a 0, rest) := by
  simp only [decode, hrow, h]

theorem decode_two_operands (h : operandCount ir = 2) (a b : Byte) (rest : List Byte) :
    decode (ir :: a :: b :: rest) = .ok (row.build a b, rest) := by
  simp only [decode, hrow, h]

end

theorem decode_encode (i : Instr) (rest : List Byte) : decode (encode i ++ rest) = .ok (i, rest) := by
  obtain ⟨row, hrow, hbuild⟩ := opcodeRow_statement i
  have hcount := operandCount_opcode i
  have hle := operandCount_opcode_le i
  rw [encode]
  match hops : i.operandBytes with
  | [] =>
    rw [hops] at hbuild hcount
    exact (decode_zero_operands hrow hcount rest).trans (by rw [← hbuild]; rfl)
  | [a] =>
    rw [hops] at hbuild hcount
    exact (decode_one_operand hrow hcount a rest).trans (by rw [← hbuild]; rfl)
  | [a, b] =>
    rw [hops] at hbuild hcount
    exact (decode_two_operands hrow hcount a b rest).trans (by rw [← hbuild]; rfl)
  | _ :: _ :: _ :: more =>
    rw [hops, List.length_cons, List.length_cons, List.length_cons] at hcount
    omega

theorem encode_decode {bs rest : List Byte} {i : Instr} (h : decode bs = .ok (i, rest)) : encode i ++ rest = bs := by
  cases bs with
  | nil => cases h
  | cons ir more =>
    cases hrow : findRow ir with
    | none => rw [decode_illegal hrow] at h; cases h
    | some row =>
      have hencode := encode_build hrow
      simp only [decode, hrow] at h
      split at h
      case h_1 hcount =>
        cases h
        rw [hencode, hcount]
        rfl
      case h_2 hcount =>
        cases h
        rw [hencode, hcount]
        rfl
      case h_4 n a b tail hcount =>
        cases h
        rw [hencode, hcount, List.take_of_length_le (by simp)]
        rfl
      all_goals cases h

end Sys2Proof

namespace Sys2Proof.Claims

/-- Settles O7: the row of the opcode reads as many operand bytes as the encoder wrote, and builds the instruction from
them. -/
theorem decodeOfEncode : Obligations.DecodeOfEncode := decode_encode

/-- Settles O8: what the decoder reads is the opcode of the row it found and the operand bytes it gave to that row. -/
theorem encodeOfDecode : Obligations.EncodeOfDecode := fun _ _ _ => encode_decode

/-- Settles O10: the decoder evaluated on the twelve words. -/
theorem specWordsDecode : Obligations.SpecWordsDecode := by
  unfold Obligations.SpecWordsDecode
  decide

end Sys2Proof.Claims
end

section
/-! PROOFS. The loop (spec/40_fetch_and_sequence.md): the fetch of bytes that decode and of bytes that do not, the order
of the loop's own faults, the kinds of step, and the machine that has ended. -/

namespace Sys2Proof.Machine

open Sys2Proof.Claims (BytesAt)

/-! ### The fetch -/

/-- The fetch unit reads every byte of an instruction that stands at `pc` (R106, R108). -/
theorem encode_isPrefix_codeBytes {s : State} {i : Instr} (h : BytesAt s (encode i)) : encode i <+: codeBytes s := by
  obtain ⟨hfit, hbytes⟩ := h
  have hlen : (encode i).length ≤ 3 := by
    have := operandCount_opcode_le i
    rw [operandCount_opcode] at this
    exact Nat.succ_le_succ this
  rw [List.prefix_iff_getElem?]
  intro k hk
  have hrange : k < min 3 (memSize - s.pc) := by
    show k < min 3 (256 - s.pc)
    omega
  rw [codeBytes_eq, List.getElem?_map, List.getElem?_range hrange, Option.map_some, hbytes k hk]

theorem fetch_of_bytesAt {s : State} {i : Instr} (h : BytesAt s (encode i)) : fetch s = .ok i := by
  obtain ⟨rest, hcode⟩ := encode_isPrefix_codeBytes h
  simp only [fetch, ← hcode, decode_encode]

theorem fetch_outside {s : State} (h : memSize ≤ s.pc) : fetch s = .error (.addressingFault s.pc) := by
  have hempty : codeBytes s = [] := List.eq_nil_of_length_eq_zero (by rw [codeBytes_length]; omega)
  simp only [fetch, hempty, decode]

/-- A legal opcode whose operands pass 255 faults at 256, the first address that is no cell (R108). -/
theorem fetch_missing_operand {s : State} {row : OpcodeRow} (hpc : s.pc < memSize)
    (hrow : findRow (s.byteAt s.pc) = some row) (h : memSize ≤ s.pc + operandCount (s.byteAt s.pc)) :
    fetch s = .error (.addressingFault memSize) := by
  obtain ⟨more, hcode⟩ := codeBytes_eq_cons hpc
  have hlen := codeBytes_length s
  have hle := operandCount_le hrow
  cases hd : decode (codeBytes s) with
  | ok e =>
    have hfetch : fetch s = .ok e.1 := by simp only [fetch, hd]
    obtain ⟨hop, -, hfit⟩ := fetch_eq_ok hfetch
    have hcount := operandCount_opcode e.1
    rw [Instr.length, encode, List.length_cons, ← hcount, ← hop] at hfit
    omega
  | error e =>
    rcases decode_eq_error hd with ⟨hnil, -⟩ | ⟨ir, _, hc, hnone, -⟩ | ⟨ir, _, _, hc, -, rfl, hlt⟩
    · rw [hcode] at hnil
      cases hnil
    · rw [← (codeBytes_head hc).2, hrow] at hnone
      cases hnone
    · rw [← (codeBytes_head hc).2] at hlt
      have hend : s.pc + (codeBytes s).length = memSize := by omega
      simp only [fetch, hd, hend]

/-! ### The iteration -/

theorem iterate_overflow {s : State} (hp : pendingLine s = none) (ho : overflowed s = true) :
    iterate s = .next (raise s (.stackOverflow s.sp)) := by
  simp only [iterate, hp, ho, if_true, settle_error]

theorem iterate_fetch_ok {s : State} {i : Instr} (hp : pendingLine s = none) (ho : overflowed s = false)
    (hf : fetch s = .ok i) : iterate s = exec i s := by
  simp only [iterate, hp, ho, hf, Bool.false_eq_true, if_false]

/-! ### The ended machine; the other ended status is `step_halted` -/

theorem step_stopped {s : State} (hs : s.status = .stopped) : step s = .next s := by
  simp only [step, nextStep, hs]

theorem transition_stopped (k : StepKind) {s : State} (hs : s.status = .stopped) : transition k s = .next s := by
  simp only [transition, hs]

theorem step_faulted {s : State} {f : Fault} (hs : s.status = .faulted f) : step s = .fault f := by
  simp only [step, nextStep, hs]

theorem transition_faulted (k : StepKind) {s : State} {f : Fault} (hs : s.status = .faulted f) :
    transition k s = .fault f := by
  simp only [transition, hs]

theorem deliver_not_running {s : State} (e : Event) (hs : s.status ≠ .running) : deliver e s = s := if_neg hs

theorem stop_running {s : State} (hs : s.status = .running) : stop s = { s with status := .stopped } := if_pos hs

/-! ### The kind of the next step (log 9) -/

theorem nextKind_stop {s : State} (h : s.stopRequested = true) : nextKind s = .stop := by
  simp only [nextKind, h, if_true]

theorem nextKind_timer {s : State} (hr : s.stopRequested = false) (h : s.timerFired = true) :
    nextKind s = .deliver .timer := by
  simp only [nextKind, hr, h, Bool.false_eq_true, if_false, if_true]

theorem nextKind_input {s : State} {key : Option Byte} (hr : s.stopRequested = false) (ht : s.timerFired = false)
    (h : s.inputFired = some key) : nextKind s = .deliver (.input key) := by
  simp only [nextKind, hr, ht, h, Bool.false_eq_true, if_false]

end Sys2Proof.Machine

namespace Sys2Proof.Claims

open Sys2Proof.Machine

/-! ### A quiet machine: its step is the end of its fetch -/

section
variable {s : State} (hidle : Idle s) (hquiet : NoInterrupt s)
include hidle hquiet

theorem step_overflow (h : ¬ StackClear s) : step s = .next (raise s (.stackOverflow s.sp)) := by
  have hover : overflowed s = true := by rwa [stackClear_iff, Bool.not_eq_false] at h
  rw [step_eq_iterate hidle.ready]
  exact iterate_overflow (noInterrupt_iff.mp hquiet) hover

theorem step_fetch_error (hclear : StackClear s) {f : Fault} (hf : fetch s = .error f) :
    step s = .next (raise s f) := by
  rw [step_eq_iterate hidle.ready]
  exact iterate_fetch_error (noInterrupt_iff.mp hquiet) (stackClear_iff.mp hclear) hf

theorem step_fetch_ok (hclear : StackClear s) {i : Instr} (hf : fetch s = .ok i) : step s = exec i s := by
  rw [step_eq_iterate hidle.ready]
  exact iterate_fetch_ok (noInterrupt_iff.mp hquiet) (stackClear_iff.mp hclear) hf

end

theorem BytesAt.left {s : State} {bs cs : List Byte} (h : BytesAt s (bs ++ cs)) : BytesAt s bs := by
  obtain ⟨hfit, hbytes⟩ := h
  rw [List.length_append] at hfit
  refine ⟨by omega, fun k hk => ?_⟩
  rw [hbytes k (by rw [List.length_append]; omega), List.getElem_append_left hk]

theorem exists_row_of_legal {ir : Byte} (h : ir ∈ legalOpcodes) : ∃ row, findRow ir = some row :=
  Option.ne_none_iff_exists'.mp fun hnone => findRow_eq_none.mp hnone h

/-! ### The obligations -/

/-- Settles O12: bytes that decode begin with the encoding of what they decode to, and the fetch reads that much. -/
theorem stepRunsDecodedInstruction : Obligations.StepRunsDecodedInstruction := by
  intro s bs rest i hidle hquiet hclear hbytes hdecode
  rw [← encode_decode hdecode] at hbytes
  exact step_fetch_ok hidle hquiet hclear (fetch_of_bytesAt hbytes.left)

/-- Settles O13: one fault of the loop or of the fetch for each clause. -/
theorem fetchFaultsInOrder : Obligations.FetchFaultsInOrder := by
  intro s hidle hquiet
  refine ⟨step_overflow hidle hquiet, fun hclear hpc => ?_, fun hclear hpc hillegal => ?_,
    fun hclear hpc hlegal hend => ?_⟩
  · exact step_fetch_error hidle hquiet hclear (fetch_outside hpc)
  · exact step_fetch_error hidle hquiet hclear (fetch_illegal hpc (findRow_eq_none.mpr hillegal))
  · obtain ⟨row, hrow⟩ := exists_row_of_legal hlegal
    rw [toNat_shiftRight_six] at hend
    exact step_fetch_error hidle hquiet hclear (fetch_missing_operand hpc hrow hend)

/-- Settles O16: one answer for each ended status. -/
theorem endedMachineStaysEnded : Obligations.EndedMachineStaysEnded := by
  refine fun s => ⟨?_, fun f hf => ⟨step_faulted hf, fun k => transition_faulted k hf⟩,
    fun hs e => deliver_not_running e hs⟩
  rintro (hs | hs)
  · exact ⟨step_halted hs, fun k => transition_halted k hs⟩
  · exact ⟨step_stopped hs, fun k => transition_stopped k hs⟩

/-- Settles O22: a running machine makes the transition of its next kind, in the state with that firing released. -/
theorem heldEventsServedFirst : Obligations.HeldEventsServedFirst := by
  intro s hs
  refine ⟨fun hr => ?_, fun hr ht => ?_, fun hr ht key hi => ?_, fun hidle => ?_⟩
  · rw [step_running hs, nextKind_stop hr, ← stop_running hs]
    exact transition_running .stop hs
  · rw [step_running hs, nextKind_timer hr ht]
    rfl
  · rw [step_running hs, nextKind_input hr ht hi]
    rfl
  · rw [step_eq_iterate hidle.ready, transition_running .iterate hs]

end Sys2Proof.Claims
end

section
/-! PROOFS. What every step keeps: the invariant, the bits of FL, `ie`, the cells, `prog_top` and the parameters
(spec/10_state.md, 20_memory.md, 60_exceptions.md), each read off the cases of a step. -/

namespace Sys2Proof.Machine

/-! ### What an interrupt entry leaves alone, in any state -/

theorem pushAll_shape {s t : State} {vs : List Byte} (h : pushAll s vs = .ok t) :
    t = { s with regs := t.regs, mem := t.mem } := by
  induction vs generalizing s with
  | nil =>
    cases h
    rfl
  | cons v vs ih =>
    obtain ⟨u, hu, h⟩ := bind_eq_ok.mp h
    obtain ⟨-, rfl⟩ := push_eq_ok.mp hu
    exact (ih h :)

theorem saveFrame_shape {s t : State} (h : saveFrame s = .ok t) : t = { s with regs := t.regs, mem := t.mem } := by
  rcases Nat.lt_or_ge s.pc memSize with hpc | hpc
  · rw [saveFrame_eq_pushAll hpc] at h
    exact pushAll_shape h
  · rw [saveFrame_outside hpc] at h
    cases h

theorem interruptEntry_shape {s t : State} {n : Line} (h : interruptEntry s n = .ok t) :
    t = { s with regs := t.regs, mem := t.mem, pc := t.pc, ie := false } := by
  rw [interruptEntry_eq] at h
  obtain ⟨u, hu, ht⟩ := bind_eq_ok.mp h
  have hshape := saveFrame_shape hu
  cases ht
  rw [hshape]
  rfl

/-! ### The invariant -/

/-- What the interface holds is no part of the invariant. -/
theorem release_inv {s : State} (k : StepKind) (hs : s.Inv) : (release k s).Inv := by
  have hrecord : ∀ f, s.status = .faulted f → FaultRecord (release k s) f := fun f hf => by
    have := hs.faultRecord f hf
    cases k with
    | iterate => exact this
    | stop => exact this
    | deliver e => cases e <;> cases f <;> exact this
  cases k with
  | iterate => exact hs
  | stop => exact hs
  | deliver e => cases e <;> exact ⟨hs.memory, hs.pc, hs.config, hrecord⟩

theorem step_inv {s t : State} (hs : s.Inv) (h : step s = .next t) : t.Inv := by
  cases hst : s.status with
  | running =>
    rw [step_running hst] at h
    exact transition_inv (release_inv _ hs) h
  | halted =>
    rw [step_halted hst] at h
    cases h
    exact hs
  | stopped =>
    rw [step_stopped hst] at h
    cases h
    exact hs
  | faulted f =>
    rw [step_faulted hst] at h
    cases h

/-! ### FL and `ie` -/

/-- Only an iteration changes FL or `ie`. -/
theorem step_keeps_or_iterates {s t : State} (h : step s = .next t) :
    (t.fl = s.fl ∧ t.ie = s.ie) ∨ (Ready s ∧ IterateCase s t) := by
  cases step_cases h with
  | ended _ ht => exact .inl (ht ▸ ⟨rfl, rfl⟩)
  | stop _ _ ht => exact .inl (ht ▸ ⟨rfl, rfl⟩)
  | timer _ _ _ ht => exact .inl (ht ▸ ⟨rfl, rfl⟩)
  | input _ _ _ _ _ ht => exact .inl (ht ▸ ⟨rfl, rfl⟩)
  | iterate hs hc => exact .inr ⟨hs, hc⟩

theorem fetch_iret {s : State} (h : fetch s = .ok .iret) : s.pc < memSize ∧ s.byteAt s.pc = 0x13 :=
  have ⟨hop, hpc, _⟩ := fetch_eq_ok h
  ⟨hpc, hop⟩

/-- R29: an iteration that clears a bit of FL executes IRET. -/
theorem IterateCase.iret_of_fl_cleared {s t : State} {k : Nat} (hc : IterateCase s t) (hs : s.fl.getLsbD k = true)
    (ht : t.fl.getLsbD k = false) : s.pc < memSize ∧ s.byteAt s.pc = 0x13 := by
  cases hc with
  | interrupt n _ hentry =>
    rw [interruptEntry_shape hentry] at ht
    exact absurd hs (by simp [ht])
  | instruction i _ _ hfetch _ hi =>
    by_cases hiret : i = .iret
    · exact fetch_iret (hiret ▸ hfetch)
    · exact absurd (hi.fl hiret k hs) (by simp [ht])
  | fault f hf _ =>
    rw [hf, raise_fl] at ht
    exact absurd hs (by simp [ht])

/-- R194: an iteration that clears `ie` takes an interrupt. -/
theorem IterateCase.pending_of_ie_cleared {s t : State} (hc : IterateCase s t) (hs : s.ie = true) (ht : t.ie = false) :
    ∃ n, pendingLine s = some n := by
  cases hc with
  | interrupt n hn _ => exact ⟨n, hn⟩
  | instruction i _ _ _ _ hi =>
    rw [hi.ie, hs, ite_self] at ht
    cases ht
  | fault f hf _ =>
    rw [hf, raise_ie, hs] at ht
    cases ht

/-- R36: an iteration that sets `ie` executes IRET. -/
theorem IterateCase.iret_of_ie_set {s t : State} (hc : IterateCase s t) (hs : s.ie = false) (ht : t.ie = true) :
    s.pc < memSize ∧ s.byteAt s.pc = 0x13 := by
  cases hc with
  | interrupt n _ hentry =>
    rw [interruptEntry_shape hentry] at ht
    cases ht
  | instruction i _ _ hfetch _ hi =>
    by_cases hiret : i = .iret
    · exact fetch_iret (hiret ▸ hfetch)
    · rw [hi.ie, if_neg hiret, hs] at ht
      cases ht
  | fault f hf _ =>
    rw [hf, raise_ie, hs] at ht
    cases ht

/-! ### The cells -/

theorem opcode_of_storesToMemory {i : Instr} (h : storesToMemory i = true) :
    i.opcode ∈ ([0x84, 0x45, 0x50] : List Byte) := by
  revert h
  cases i <;> simp [storesToMemory, Instr.opcode]

/-- The pushes of an interrupt entry change no cell outside its frame. -/
theorem interruptEntry_byteAt {s t : State} {n : Line} {addr : Nat} (hm : Memory.wf s.mem)
    (h : interruptEntry s n = .ok t) (ha : ∀ k, k < 8 → addr ≠ pushCell s.sp k) : t.byteAt addr = s.byteAt addr := by
  obtain ⟨-, -, u, hu, rfl⟩ := interruptEntry_eq_ok hm h
  exact hu.others addr fun k hk => by
    rw [entryStart_sp]
    exact ha k hk

theorem Completed.byteAt_of_forbidden {i : Instr} {s t : State} {addr : Nat} (h : Completed i s t)
    (hm : Memory.wf s.mem) (ha : writeForbidden s addr = true) : t.byteAt addr = s.byteAt addr := by
  rcases h.mem with hmem | ⟨-, a, v, hw, hmem⟩
  · exact State.byteAt_congr hmem addr
  · have hne : addr ≠ a := fun he => by
      rw [he, hw] at ha
      cases ha
    rw [State.byteAt, hmem, Memory.read_write hm, if_neg hne, State.byteAt]

/-- An iteration changes no cell that a write of the running machine may not touch (R53, R58). -/
theorem IterateCase.byteAt_of_forbidden {s t : State} {addr : Nat} (hc : IterateCase s t) (hm : Memory.wf s.mem)
    (ha : writeForbidden s addr = true) : t.byteAt addr = s.byteAt addr := by
  cases hc with
  | interrupt n _ hentry =>
    obtain ⟨-, hallowed, -⟩ := interruptEntry_eq_ok hm hentry
    refine interruptEntry_byteAt hm hentry fun k hk he => ?_
    rw [he, hallowed k hk] at ha
    cases ha
  | instruction i _ _ _ _ hi => exact hi.byteAt_of_forbidden hm ha
  | fault f hf _ => rw [hf, raise_byteAt]

/-- The deposit of an input byte changes the cell at 244 alone (R60). -/
theorem deposit_byteAt_other {m : Memory} (hm : Memory.wf m) (v : Byte) {addr : Nat} (ha : addr ≠ keyAddr) :
    Memory.read (Memory.write m keyAddr v) addr = Memory.read m addr := by
  rw [Memory.read_write hm, if_neg ha]

/-! ### The transfers, and `pc` -/

theorem opcode_mem_legal (i : Instr) : i.opcode ∈ Claims.legalOpcodes := by
  have hsome := findRow_isSome_opcode i
  by_contra hillegal
  rw [Claims.findRow_eq_none.mpr hillegal] at hsome
  cases hsome

/-- The six transfers are the opcodes with the sets-PC bit (R82, R87). -/
theorem opcode_of_setsPc {i : Instr} (h : setsPcOpcode i.opcode = true) :
    i.opcode ∈ ([0x54, 0x55, 0x56, 0x50, 0x11, 0x13] : List Byte) := by
  have hall : ∀ op ∈ Claims.legalOpcodes, setsPcOpcode op = true →
      op ∈ ([0x54, 0x55, 0x56, 0x50, 0x11, 0x13] : List Byte) := by decide
  exact hall _ (opcode_mem_legal i) h

end Sys2Proof.Machine

namespace Sys2Proof.Claims

open Sys2Proof.Machine

/-! ### The words of the statements -/

theorem idle_of_ready {s : State} (h : Ready s) : Idle s := ⟨h.running, h.noStop, h.noTimer, h.noInput⟩

theorem eligible_of_pendingLine {s : State} {n : Line} (h : pendingLine s = some n) : s.ie = true ∧ Eligible s n :=
  have ⟨hie, heligible, _⟩ := pendingLine_eq_some_iff_eligible.mp h
  ⟨hie, heligible⟩

/-! ### The obligations -/

/-- Settles O3: `transition_inv` is the step lemma, a held firing is no part of the invariant, and `boot_inv` is the
base. -/
theorem stepKeepsInvariant : Obligations.StepKeepsInvariant :=
  ⟨fun _ _ => step_inv, fun _ _ _ => transition_inv, fun _ image => boot_inv image⟩

/-- Settles O24: of the steps only an iteration changes FL, and of the iterations only that of an IRET clears a bit. -/
theorem flagBitsClearedOnlyByIret : Obligations.FlagBitsClearedOnlyByIret := by
  intro s t k h hs ht
  rcases step_keeps_or_iterates h with ⟨hfl, -⟩ | ⟨hready, hc⟩
  · rw [hfl, hs] at ht
    cases ht
  · exact ⟨idle_of_ready hready, hc.iret_of_fl_cleared hs ht⟩

/-- Settles O20: as O24, with the interrupt entry as what clears `ie` and IRET as what sets it. -/
theorem interruptEnableChanges : Obligations.InterruptEnableChanges := by
  intro s t h
  rcases step_keeps_or_iterates h with ⟨-, hie⟩ | ⟨hready, hc⟩
  · rw [hie]
    exact ⟨fun h1 h0 => absurd h1 (by simp [h0]), fun h0 h1 => absurd h1 (by simp [h0])⟩
  · refine ⟨fun hs ht => ?_, fun hs ht => ⟨idle_of_ready hready, hc.iret_of_ie_set hs ht⟩⟩
    obtain ⟨n, hn⟩ := hc.pending_of_ie_cleared hs ht
    exact ⟨idle_of_ready hready, n, (eligible_of_pendingLine hn).2⟩

/-- Settles O26: an entry writes its frame, an instruction that writes is one of the three, a deposit writes 244, and no
other step has another memory. -/
theorem memoryWriters : Obligations.MemoryWriters := by
  intro s t addr hm h hne
  cases step_cases h with
  | ended _ ht => exact absurd (ht ▸ rfl) hne
  | stop _ _ ht => exact absurd (ht ▸ rfl) hne
  | timer _ _ _ ht => exact absurd (ht ▸ rfl) hne
  | input key hrun hr hq hf ht =>
    refine .inr (.inr ⟨hrun, hr, hq, by simp [hf], ?_⟩)
    by_contra haddr
    exact hne (ht ▸ deposit_byteAt_other hm _ haddr)
  | iterate hready hc =>
    have hidle := idle_of_ready hready
    cases hc with
    | interrupt n hn hentry =>
      obtain ⟨hie, heligible⟩ := eligible_of_pendingLine hn
      refine .inr (.inl ⟨hidle, hie, ⟨n, heligible⟩, ?_⟩)
      by_contra hframe
      exact hne (interruptEntry_byteAt hm hentry fun k hk he => hframe ⟨k, hk, he⟩)
    | instruction i hp ho hfetch _ hi =>
      rcases hi.mem with hmem | ⟨hstores, -⟩
      · exact absurd (State.byteAt_congr hmem addr) hne
      · obtain ⟨hop, hpc, -⟩ := fetch_eq_ok hfetch
        exact .inl ⟨hidle, noInterrupt_iff.mpr hp, stackClear_iff.mpr ho, hpc, hop ▸ opcode_of_storesToMemory hstores⟩
    | fault f hf _ => exact absurd (hf ▸ rfl) hne

/-- Settles O27: a protected cell is one that no iteration may write, and the deposit falls on 244. -/
theorem vectorTableProtected : Obligations.VectorTableProtected := by
  intro s t addr hm hprotect h haddr
  cases step_cases h with
  | ended _ ht => exact ht ▸ rfl
  | stop _ _ ht => exact ht ▸ rfl
  | timer _ _ _ ht => exact ht ▸ rfl
  | input _ _ _ _ _ ht =>
    have hkey : addr ≠ keyAddr := by
      show addr ≠ 244
      omega
    exact ht ▸ deposit_byteAt_other hm _ hkey
  | iterate _ hc => exact hc.byteAt_of_forbidden hm (writeForbidden_eq_true.mpr (.inr ⟨hprotect, haddr⟩))

/-- Settles O28: the fields are read off each case of a step; only a completed instruction adds to the output. -/
theorem fixedDuringRun : Obligations.FixedDuringRun := by
  intro s t h
  cases step_cases h with
  | ended _ ht => exact ht ▸ ⟨rfl, rfl, List.prefix_rfl⟩
  | stop _ _ ht => exact ht ▸ ⟨rfl, rfl, List.prefix_rfl⟩
  | timer _ _ _ ht => exact ht ▸ ⟨rfl, rfl, List.prefix_rfl⟩
  | input _ _ _ _ _ ht => exact ht ▸ ⟨rfl, rfl, List.prefix_rfl⟩
  | iterate _ hc =>
    cases hc with
    | interrupt n _ hentry =>
      rw [interruptEntry_shape hentry]
      exact ⟨rfl, rfl, List.prefix_rfl⟩
    | instruction i _ _ _ _ hi =>
      obtain ⟨es, hout⟩ := hi.out
      exact ⟨hi.progTop, hi.cfg, hout ▸ List.prefix_append s.out es⟩
    | fault f hf _ => exact hf ▸ ⟨rfl, rfl, List.prefix_rfl⟩

/-- Settles O15: the only way from a running machine to a faulted one is the case that undoes the iteration. -/
theorem faultKeepsStateBefore : Obligations.FaultKeepsStateBefore := by
  intro s t f h hrun hfault
  have hsafe : s.Safe := safe_of_running hrun
  cases step_cases h with
  | ended _ ht => exact absurd (ht ▸ hfault) (hsafe f)
  | stop _ _ ht =>
    rw [ht] at hfault
    cases hfault
  | timer _ _ _ ht => exact absurd hfault (ht ▸ hsafe f)
  | input _ _ _ _ _ ht => exact absurd hfault (ht ▸ hsafe f)
  | iterate _ hc =>
    cases hc with
    | interrupt n _ hentry =>
      rw [interruptEntry_shape hentry] at hfault
      exact absurd hfault (hsafe f)
    | instruction i _ _ _ _ hi => exact absurd hfault (hi.safe hsafe f)
    | fault g hg _ =>
      rw [hg, raise_status] at hfault
      cases hfault
      exact hg

/-- Settles O14: what a completed instruction does to `pc`, the fault case being excluded. -/
theorem pcAdvancesOrIsSet : Obligations.PcAdvancesOrIsSet := by
  intro i s t h _ hsafe
  rcases exec_cases h with hi | ⟨f, rfl, -⟩
  · exact hi.pc.imp_right fun ⟨hsets, hpc⟩ => ⟨opcode_of_setsPc hsets, hpc⟩
  · exact absurd (raise_status s f) (hsafe f)

end Sys2Proof.Claims
end

section
/-! PROOFS. Reset and the load (spec/10_state.md R43, 70_reset_and_hazards.md R225..R228, R235). -/

namespace Sys2Proof.Machine

/-! ### The state after reset -/

theorem resetWith_reg (c : Config) (r : Fin 8) : (State.resetWith c).reg r = if r = 7 then 244 else 0 := by
  have hall : ∀ r, State.reset.reg r = if r = 7 then 244 else 0 := by decide
  exact hall r

/-- IM is 0 at reset, so no line is unmasked. -/
theorem pendingLine_of_mask_zero {s : State} (h : s.intMask = 0) : pendingLine s = none := by
  rw [pendingLine_eq_none, h]
  exact .inr fun n => by simp

/-! ### The load -/

theorem boot_tooLarge (c : Config) {image : List Byte} (h : memSize < image.length) :
    boot c image = raise (State.resetWith c) (.programTooLarge image.length) := if_pos h

/-- The highest address the loader wrote (R37). -/
def imageTop (image : List Byte) : Option Byte :=
  if image.isEmpty then none else some (BitVec.ofNat 8 (image.length - 1))

theorem imageTop_of_pos {image : List Byte} (h : 0 < image.length) :
    imageTop image = some (BitVec.ofNat 8 (image.length - 1)) := by
  cases image with
  | nil => cases h
  | cons b bs => rfl

/-- The index of the last byte of an image that fits is itself a byte. -/
theorem lastIndex_toNat {image : List Byte} (h : image.length ≤ memSize) :
    (BitVec.ofNat 8 (image.length - 1)).toNat = image.length - 1 := by
  have hlt : image.length - 1 < 256 := by
    have hfit : image.length ≤ 256 := h
    omega
  rw [BitVec.toNat_ofNat]
  exact Nat.mod_eq_of_lt hlt

theorem boot_fits (c : Config) {image : List Byte} (h : image.length ≤ memSize) :
    boot c image = { State.resetWith c with mem := Memory.store [] 0 image, progTop := imageTop image } :=
  if_neg (Nat.not_lt.mpr h)

/-- The cell at each address after the load: the image's byte, or 0 beyond the image. -/
theorem boot_byteAt (c : Config) {image : List Byte} (h : image.length ≤ memSize) (addr : Nat) :
    (boot c image).byteAt addr = image[addr]?.getD 0 := by
  rw [boot_fits c h]
  show Memory.read (Memory.store [] 0 image) addr = _
  rw [Memory.read_store image 0 addr Memory.wf_nil, Memory.read_nil, Nat.sub_zero]
  by_cases haddr : addr < memSize
  · rw [if_pos ⟨Nat.zero_le _, haddr⟩]
  · rw [if_neg (fun hin => haddr hin.2), List.getElem?_eq_none (by omega), Option.getD_none]

/-- SP is 244 after reset, so a last loaded address from 244 on meets the overflow check (R235). -/
theorem overflowed_boot (c : Config) {image : List Byte} (hlong : 244 < image.length) (h : image.length ≤ memSize) :
    overflowed (boot c image) = true := by
  have htop : (boot c image).progTop = some (BitVec.ofNat 8 (image.length - 1)) := by
    rw [boot_fits c h]
    exact imageTop_of_pos (by omega)
  have hsp : (boot c image).sp.toNat = 244 := by
    rw [boot_fits c h]
    rfl
  simp only [overflowed, htop, hsp, lastIndex_toNat h, decide_eq_true_eq]
  omega

end Sys2Proof.Machine

namespace Sys2Proof.Claims

open Sys2Proof.Machine

/-- Settles O1: each field of the reset state, as R43 has it. -/
theorem resetValues : Obligations.ResetValues :=
  fun c => ⟨fun _ => rfl, resetWith_reg c, rfl, rfl, rfl, rfl, rfl, rfl, rfl, rfl, rfl, rfl, rfl⟩

/-- Settles O2: the default lines 0 and 1 differ, and `resetWith_inv` does the rest. -/
theorem resetMeetsInvariant : Obligations.ResetMeetsInvariant :=
  ⟨fun _ => resetWith_inv, resetWith_inv (c := Config.default) (by decide)⟩

/-- Settles O5: the load either is refused or changes the cells and `prog_top` alone. -/
theorem loadWritesImage : Obligations.LoadWritesImage := by
  refine fun c image => ⟨boot_tooLarge c, fun hfit =>
    ⟨fun k hk => ?_, fun addr haddr => ?_, fun hempty => ?_, fun hpos => ?_, ?_⟩⟩
  · rw [boot_byteAt c hfit, List.getElem?_eq_getElem hk, Option.getD_some]
  · rw [boot_byteAt c hfit, List.getElem?_eq_none haddr, Option.getD_none]
  · rw [boot_fits c hfit, List.eq_nil_of_length_eq_zero hempty]
    rfl
  · refine ⟨_, ?_, lastIndex_toNat hfit⟩
    rw [boot_fits c hfit]
    exact imageTop_of_pos hpos
  · rw [boot_fits c hfit]

/-- Settles O6: nothing is held and no line is unmasked after the load, so the first step makes the overflow check,
which fails. -/
theorem longImageOverflowsAtOnce : Obligations.LongImageOverflowsAtOnce := by
  intro c image hlong hfit
  have hready : Ready (boot c image) := by
    rw [boot_fits c hfit]
    exact ⟨rfl, rfl, rfl, rfl⟩
  have hmask : (boot c image).intMask = 0 := by
    rw [boot_fits c hfit]
    rfl
  have hsp : (boot c image).sp = 244 := by
    rw [boot_fits c hfit]
    rfl
  rw [step_eq_iterate hready, iterate_overflow (pendingLine_of_mask_zero hmask) (overflowed_boot c hlong hfit), hsp]
  rfl

end Sys2Proof.Claims
end

section
/-! PROOFS. Memory accesses and the stack (spec/20_memory.md R52..R65, 43_memory_access.md R143..R145): the checked
accesses, ST, PUSH, POP, and what a frame keeps when one change follows another. -/

namespace Sys2Proof.Machine

/-! ### ST -/

theorem execSt_ok {s : State} (a b : Fin 8) (h : writeForbidden s (s.reg a).toNat = false) :
    execSt (regIndex a) (regIndex b) s =
      .next (applyControl { s with mem := Memory.write s.mem (s.reg a).toNat (s.reg b) } (.advance 3)) := by
  simp only [execSt, effectiveAddress_regIndex, readReg_regIndex, memWrite_ok _ h, ok_bind, pure_eq_ok, complete_ok]

theorem execSt_forbidden {s : State} (a b : Fin 8) (h : writeForbidden s (s.reg a).toNat = true) :
    execSt (regIndex a) (regIndex b) s = .next (raise s (.addressingFault (s.reg a).toNat)) := by
  simp only [execSt, effectiveAddress_regIndex, readReg_regIndex, memWrite_forbidden _ h, ok_bind, error_bind,
    complete_error]

theorem execSt_invalid_address (s : State) {a : Byte} (b : Byte) (h : 8 ≤ a.toNat) :
    execSt a b s = .next (raise s (.invalidRegister a)) := by
  simp only [execSt, effectiveAddress_invalid s h, error_bind, complete_error]

theorem execSt_invalid_source (s : State) (a : Fin 8) {b : Byte} (h : 8 ≤ b.toNat) :
    execSt (regIndex a) b s = .next (raise s (.invalidRegister b)) := by
  simp only [execSt, effectiveAddress_regIndex, readReg_invalid s h, ok_bind, error_bind, complete_error]

/-! ### PUSH -/

theorem execPush_of_push {s u : State} {a : Fin 8} (h : push s (s.reg a) = .ok u) :
    execPush (regIndex a) s = .next (applyControl u (.advance 2)) := by
  simp only [execPush, readReg_regIndex, h, ok_bind, pure_eq_ok, complete_ok]

theorem execPush_forbidden {s : State} (a : Fin 8) (h : writeForbidden s (s.sp - 1).toNat = true) :
    execPush (regIndex a) s = .next (raise s (.addressingFault (s.sp - 1).toNat)) := by
  simp only [execPush, readReg_regIndex, push_forbidden _ h, ok_bind, error_bind, complete_error]

theorem execPush_invalid (s : State) {a : Byte} (h : 8 ≤ a.toNat) :
    execPush a s = .next (raise s (.invalidRegister a)) := by
  simp only [execPush, readReg_invalid s h, error_bind, complete_error]

/-- One push is several pushes of one byte, so the laws of `Pushed` hold of it. -/
theorem push_pushed {s : State} (v : Byte) (hm : Memory.wf s.mem) (hw : writeForbidden s (s.sp - 1).toNat = false) :
    ∃ u, push s v = .ok u ∧ Pushed s u [v] := by
  have hcells : ∀ k, k < [v].length → writeForbidden s (pushCell s.sp k) = false := fun k hk => by
    obtain rfl : k = 0 := Nat.lt_one_iff.mp hk
    rwa [pushCell_zero]
  obtain ⟨t, hall, hp⟩ := pushAll_ok hm (vs := [v]) (by simp) hcells
  obtain ⟨u, hu, ht⟩ := bind_eq_ok.mp hall
  cases ht
  exact ⟨_, hu, hp⟩

section
variable {s t : State} {v : Byte} (h : Pushed s t [v])
include h

theorem Pushed.top : t.byteAt (s.reg 7 - 1).toNat = v := by
  have hcell := h.cells 0 Nat.one_pos
  rwa [pushCell_zero] at hcell

theorem Pushed.sp_one : t.reg 7 = s.reg 7 - 1 := h.reg_sp

theorem Pushed.pc : t.pc = s.pc := by rw [h.shape]; rfl

end

/-! ### POP -/

theorem execPop_ok {s : State} (a : Fin 8) (h : s.sp ≠ spInit) :
    execPop (regIndex a) s =
      .next (applyControl ((s.setReg 7 (s.sp + 1)).setReg a (s.byteAt s.sp.toNat)) (.advance 2)) := by
  simp only [execPop, checkReg_regIndex, pop_ok h, writeReg_regIndex, ok_bind, pure_eq_ok, complete_ok]

theorem execPop_underflow {s : State} (a : Fin 8) (h : s.sp = spInit) :
    execPop (regIndex a) s = .next (raise s (.stackUnderflow spInit)) := by
  simp only [execPop, checkReg_regIndex, pop_underflow h, ok_bind, error_bind, complete_error]

/-- The index is checked before the pop (90_conflicts.md C15). -/
theorem execPop_invalid (s : State) {a : Byte} (h : 8 ≤ a.toNat) :
    execPop a s = .next (raise s (.invalidRegister a)) := by
  simp only [execPop, checkReg_invalid h, error_bind, complete_error]

theorem sp_sub_one_ne_limit {sp : Byte} (h : sp ≠ 245) : sp - 1 ≠ spInit := by
  show sp - 1 ≠ 244
  bv_omega

end Sys2Proof.Machine

namespace Sys2Proof.Claims

open Sys2Proof.Machine

/-! ### Frames and kept fields, one change after another -/

theorem Frame.control {s t : State} {regs : List (Fin 8)} {cells : List Nat} (h : Frame regs cells s t)
    (c : ControlAction) : Frame regs cells s (applyControl t c) := by
  have hall := h.trans (frame_applyControl t c)
  rwa [List.append_nil, List.append_nil] at hall

theorem Frame.mono {s t : State} {regs regs' : List (Fin 8)} {cells : List Nat} (h : Frame regs cells s t)
    (hsub : ∀ q ∈ regs, q ∈ regs') : Frame regs' cells s t :=
  ⟨fun q hq => h.registers q fun hmem => hq (hsub q hmem), h.memory, h.host⟩

/-- A register that ends with its old value need not be listed. -/
theorem Frame.restored {s t : State} {regs regs' : List (Fin 8)} {cells : List Nat} {r : Fin 8}
    (h : Frame regs cells s t) (hr : t.reg r = s.reg r) (hsub : ∀ q ∈ regs, q ≠ r → q ∈ regs') :
    Frame regs' cells s t where
  registers q hq := by
    by_cases hqr : q = r
    · rw [hqr, hr]
    · exact h.registers q fun hmem => hq (hsub q hmem hqr)
  memory := h.memory
  host := h.host

theorem frame_setReg (s : State) (r : Fin 8) (v : Byte) : Frame [r] [] s (s.setReg r v) where
  registers _ hq := State.setReg_reg_other s v (List.ne_of_not_mem_cons hq)
  memory _ _ := rfl
  host := ⟨rfl, rfl, rfl, rfl, rfl⟩

theorem frame_write {s : State} (hm : Memory.wf s.mem) (a : Nat) (v : Byte) :
    Frame [] [a] s { s with mem := Memory.write s.mem a v } where
  registers _ _ := rfl
  memory addr ha := by
    show Memory.read (Memory.write s.mem a v) addr = _
    rw [Memory.read_write hm, if_neg (List.ne_of_not_mem_cons ha), State.byteAt]
  host := ⟨rfl, rfl, rfl, rfl, rfl⟩

theorem byteAt_write {s : State} (hm : Memory.wf s.mem) (a : Nat) (v : Byte) :
    State.byteAt { s with mem := Memory.write s.mem a v } a = v := by
  show Memory.read (Memory.write s.mem a v) a = v
  rw [Memory.read_write hm, if_pos rfl]

theorem frameCell_zero (s : State) : frameCell s 0 = (s.reg 7 - 1).toNat := pushCell_zero s.sp

theorem frame_of_pushed_one {s t : State} {v : Byte} (h : Pushed s t [v]) : Frame [7] [(s.reg 7 - 1).toNat] s t := by
  rw [← frameCell_zero]
  exact frame_of_pushed h

theorem ControlKept.advance {s t : State} (h : ControlKept s t) (n : Nat) :
    ControlKept s (applyControl t (.advance n)) := ⟨h.fl, h.ie, h.status, h.out⟩

theorem ControlKept.jumpTo {s t : State} (h : ControlKept s t) (target : Byte) :
    ControlKept s (applyControl t (.jumpTo target)) := ⟨h.fl, h.ie, h.status, h.out⟩

theorem ControlKept.setReg {s t : State} (h : ControlKept s t) (r : Fin 8) (v : Byte) :
    ControlKept s (t.setReg r v) := ⟨h.fl, h.ie, h.status, h.out⟩

theorem controlKept_self (s : State) : ControlKept s s := ⟨rfl, rfl, rfl, rfl⟩

theorem writeForbidden_of_writeFaults {s : State} {addr : Nat} (h : WriteFaults s addr) :
    writeForbidden s addr = true := writeForbidden_eq_true.mpr (.inr h)

/-! ### The instructions -/

theorem checksTwo_st (a b : Byte) (s : State) : ChecksTwo (.st a b) a b s := by
  refine ⟨fun ha => execSt_invalid_address s b ha, fun ha hb => ?_⟩
  obtain ⟨r, rfl⟩ := exists_regIndex ha
  exact execSt_invalid_source s r hb

theorem exec_st {s : State} (a b : Fin 8) (hw : MayWrite s (s.reg a).toNat) :
    exec (.st (regIndex a) (regIndex b)) s =
      .next (applyControl { s with mem := Memory.write s.mem (s.reg a).toNat (s.reg b) } (.advance 3)) :=
  execSt_ok a b (writeForbidden_of_mayWrite (byte_lt _) hw)

theorem exec_push {s : State} (hm : Memory.wf s.mem) (a : Fin 8) (hw : MayWrite s (s.reg 7 - 1).toNat) :
    ∃ u, Pushed s u [s.reg a] ∧ exec (.push (regIndex a)) s = .next (applyControl u (.advance 2)) := by
  obtain ⟨u, hu, hp⟩ := push_pushed (s.reg a) hm (writeForbidden_of_mayWrite (byte_lt _) hw)
  exact ⟨u, hp, execPush_of_push hu⟩

/-! ### The obligations -/

/-- Settles O30: the laws of the two accesses, and of a write to a canonical memory. -/
theorem memoryAccessRules : Obligations.MemoryAccessRules := by
  refine fun s addr v hm => ⟨memRead_outside s, memRead_ok s, fun h => ?_, fun haddr hw => ?_⟩
  · exact memWrite_forbidden v (writeForbidden_eq_true.mpr h)
  · exact ⟨_, memWrite_ok v (writeForbidden_of_mayWrite haddr hw), byteAt_write hm addr v,
      fun other hne => (frame_write hm addr v).memory other (by simpa using hne), rfl⟩

/-- Settles O44: the address register is checked and read first; the write is the access of O30. -/
theorem stWritesCell : Obligations.StWritesCell := by
  refine fun s hm => ⟨fun a b => ⟨rfl, checksTwo_st a b s⟩, fun a b => ⟨fun hf => ?_, fun hw => ?_⟩⟩
  · exact execSt_forbidden a b (writeForbidden_of_writeFaults hf)
  · exact ⟨_, exec_st a b hw, byteAt_write hm _ _, rfl, (frame_write hm _ _).control _, rfl, rfl, rfl, rfl⟩

/-- Settles O45: after the ST the machine is as quiet as before, and the byte at its `pc` is HLT's encoding. -/
theorem storeSeenByNextFetch : Obligations.StoreSeenByNextFetch := by
  intro s a b hidle hm hquiet hclear haddr hvalue hw
  refine ⟨_, exec_st a b hw, ?_⟩
  generalize ht : applyControl { s with mem := Memory.write s.mem (s.reg a).toNat (s.reg b) } (.advance 3) = t
  have hpc : t.pc = s.pc + 3 := by rw [← ht, applyControl_advance_pc]
  have hbyte : t.byteAt (s.pc + 3) = 0x01 := by
    rw [← ht, applyControl_byteAt, ← haddr, byteAt_write hm, hvalue]
  have hhlt : BytesAt t (encode .hlt) := by
    refine ⟨by rw [hpc, ← haddr]; exact byte_lt _, fun k hk => ?_⟩
    obtain rfl : k = 0 := Nat.lt_one_iff.mp hk
    rw [hpc]
    exact hbyte
  have hidle' : Idle t := by
    rw [← ht]
    exact ⟨hidle.running, hidle.noStop, hidle.noTimer, hidle.noInput⟩
  have hquiet' : NoInterrupt t := ht ▸ hquiet
  have hclear' : StackClear t := ht ▸ hclear
  calc step t = exec .hlt t := step_fetch_ok hidle' hquiet' hclear' (fetch_of_bytesAt hhlt)
    _ = .next (applyControl t .halt) := execHlt_eq t
    _ = .next { t with pc := s.pc + 4, status := .halted } := by rw [applyControl, hpc]

/-- Settles O46: the register is checked and read first; the push is one of the pushes of an interrupt frame. -/
theorem pushWritesBelowSp : Obligations.PushWritesBelowSp := by
  refine fun s hm => ⟨fun a => ⟨rfl, fun ha => execPush_invalid s ha⟩, fun a => ⟨fun hf => ?_, fun hw => ?_⟩⟩
  · exact execPush_forbidden a (writeForbidden_of_writeFaults hf)
  · obtain ⟨u, hu, hexec⟩ := exec_push hm a hw
    exact ⟨_, hexec, hu.sp_one, hu.top, by rw [applyControl_advance_pc, hu.pc], (frame_of_pushed_one hu).control _,
      (controlKept_of_pushed hu).advance 2⟩

/-- Settles O47: SP moves before the register is written, so POP R7 ends with the popped byte. -/
theorem popReadsAtSp : Obligations.PopReadsAtSp := by
  refine fun s => ⟨fun a => ⟨rfl, fun ha => execPop_invalid s ha⟩,
    fun a => ⟨fun hsp => execPop_underflow a hsp, fun hsp => ?_⟩⟩
  have hframe : Frame [a, 7] [] s ((s.setReg 7 (s.sp + 1)).setReg a (s.byteAt s.sp.toNat)) :=
    ((frame_setReg s 7 _).trans (frame_setReg _ a _)).mono (by simp)
  refine ⟨_, execPop_ok a hsp, State.setReg_reg_same _ a _, fun ha => ?_, rfl, hframe.control _,
    (((controlKept_self s).setReg 7 _).setReg a _).advance 2⟩
  rw [applyControl_reg, State.setReg_reg_other _ _ ha.symm, State.setReg_reg_same]

/-- Settles O31: the POP finds SP at the pushed cell, so it reads the pushed byte and SP comes back. -/
theorem pushThenPop : Obligations.PushThenPop := by
  intro s a b hm hb hsp hw
  rw [frameCell_zero] at hw ⊢
  obtain ⟨u, hu, hpush⟩ := exec_push hm a hw
  generalize ht : applyControl u (.advance 2) = t at hpush
  have htsp : t.sp = s.reg 7 - 1 := by rw [← ht, State.sp, applyControl_reg, hu.sp_one]
  have htop : t.byteAt t.sp.toNat = s.reg a := by rw [htsp, ← ht, applyControl_byteAt, hu.top]
  have hpop := execPop_ok b (htsp ▸ sp_sub_one_ne_limit hsp)
  rw [htop, htsp, BitVec.sub_add_cancel] at hpop
  have hpushed : Frame [7] [(s.reg 7 - 1).toNat] s t := ht ▸ (frame_of_pushed_one hu).control _
  have hpopped := (hpushed.trans ((frame_setReg t 7 (s.reg 7)).trans (frame_setReg _ b (s.reg a)))).control (.advance 2)
  have hback : (applyControl ((t.setReg 7 (s.reg 7)).setReg b (s.reg a)) (.advance 2)).reg 7 = s.reg 7 := by
    rw [applyControl_reg, State.setReg_reg_other _ _ hb.symm, State.setReg_reg_same]
  have hkept : ControlKept s t := ht ▸ (controlKept_of_pushed hu).advance 2
  refine ⟨t, _, hpush, hpop, State.setReg_reg_same _ b _, ?_, hpopped.restored hback (by simp),
    ((hkept.setReg 7 _).setReg b _).advance 2⟩
  rw [applyControl_advance_pc, State.setReg_pc, State.setReg_pc, ← ht, applyControl_advance_pc, hu.pc]

end Sys2Proof.Claims
end

section
/-! PROOFS. CALL, RET and IRET (spec/45_call_return.md R161..R163), on the laws of the stack. -/

namespace Sys2Proof.Machine

/-! ### CALL -/

theorem execCall_of_push {s u : State} {a : Fin 8} (h : pushPc s (s.pc + 2) = .ok u) :
    execCall (regIndex a) s = .next (applyControl u (.jumpTo (s.reg a))) := by
  simp only [execCall, readReg_regIndex, h, ok_bind, pure_eq_ok, complete_ok]

theorem execCall_of_fault {s : State} {f : Fault} (a : Fin 8) (h : pushPc s (s.pc + 2) = .error f) :
    execCall (regIndex a) s = .next (raise s f) := by
  simp only [execCall, readReg_regIndex, h, ok_bind, error_bind, complete_error]

theorem execCall_invalid (s : State) {a : Byte} (h : 8 ≤ a.toNat) :
    execCall a s = .next (raise s (.invalidRegister a)) := by
  simp only [execCall, readReg_invalid s h, error_bind, complete_error]

theorem pushPc_forbidden {s : State} {t : Nat} (ht : t < memSize) (h : writeForbidden s (s.sp - 1).toNat = true) :
    pushPc s t = .error (.addressingFault (s.sp - 1).toNat) := by
  rw [pushPc_eq_push ht, push_forbidden _ h]

/-! ### RET -/

theorem execRet_ok {s : State} (h : s.sp ≠ spInit) :
    execRet s = .next (applyControl (s.setReg 7 (s.sp + 1)) (.jumpTo (s.byteAt s.sp.toNat))) := by
  simp only [execRet, pop_ok h, ok_bind, pure_eq_ok, complete_ok]

theorem execRet_underflow {s : State} (h : s.sp = spInit) : execRet s = .next (raise s (.stackUnderflow spInit)) := by
  simp only [execRet, pop_underflow h, error_bind, complete_error]

/-! ### IRET -/

theorem execIret_ok {s : State} (h : ∀ k, k < 8 → s.sp + BitVec.ofNat 8 k ≠ spInit) :
    ∃ u, Restored s u ∧ execIret s = .next (applyControl u (.jumpTo (s.byteAt (s.sp + 7).toNat))) := by
  obtain ⟨u, hu, hres⟩ := restoreFrame_ok h
  exact ⟨u, hres, by simp only [execIret, hu, ok_bind, pure_eq_ok, complete_ok]⟩

/-- One pop that meets the limit undoes all eight. -/
theorem execIret_underflow {s : State} {k : Nat} (hk : k < 8) (h : s.sp + BitVec.ofNat 8 k = spInit) :
    execIret s = .next (raise s (.stackUnderflow spInit)) := by
  simp only [execIret, restoreFrame_underflow hk h, error_bind, complete_error]

/-- The `k`-th pop meets the underflow limit exactly when SP is `k` below 244, on unbounded numbers: adding fewer than
eight cannot come round to it. -/
theorem sp_add_eq_limit_iff {sp : Byte} {k : Nat} (hk : k < 8) :
    sp + BitVec.ofNat 8 k = spInit ↔ sp.toNat + k = 244 := by
  have hsp := byte_lt sp
  rw [← BitVec.toNat_inj, BitVec.toNat_add, BitVec.toNat_ofNat]
  show (sp.toNat + k % 256) % 256 = 244 ↔ _
  change sp.toNat < 256 at hsp
  omega

section
variable {s t : State} (h : Restored s t)
include h

theorem Restored.byteAt (addr : Nat) : t.byteAt addr = s.byteAt addr := by rw [h.shape]; rfl

theorem Restored.fl : t.fl = s.byteAt (s.sp + 6).toNat := by rw [h.shape]

theorem Restored.ie : t.ie = true := by rw [h.shape]

theorem Restored.runStatus : t.status = s.status := by rw [h.shape]

theorem Restored.out : t.out = s.out := by rw [h.shape]

end

end Sys2Proof.Machine

namespace Sys2Proof.Claims

open Sys2Proof.Machine

theorem hostKept_of_restored {s t : State} (h : Restored s t) : HostKept s t := by
  rw [h.shape]
  exact ⟨rfl, rfl, rfl, rfl, rfl⟩

theorem HostKept.trans {s t u : State} (h₁ : HostKept s t) (h₂ : HostKept t u) : HostKept s u :=
  ⟨h₂.cfg.trans h₁.cfg, h₂.progTop.trans h₁.progTop, h₂.timerFired.trans h₁.timerFired,
    h₂.inputFired.trans h₁.inputFired, h₂.stopRequested.trans h₁.stopRequested⟩

/-- CALL saves the address after it, which fits a cell, by one push. -/
theorem exec_call {s : State} (hm : Memory.wf s.mem) (a : Fin 8) (hpc : s.pc + 2 < memSize)
    (hw : MayWrite s (s.reg 7 - 1).toNat) :
    ∃ u, Pushed s u [BitVec.ofNat 8 (s.pc + 2)] ∧
      exec (.call (regIndex a)) s = .next (applyControl u (.jumpTo (s.reg a))) := by
  obtain ⟨u, hu, hp⟩ := push_pushed (BitVec.ofNat 8 (s.pc + 2)) hm (writeForbidden_of_mayWrite (byte_lt _) hw)
  exact ⟨u, hp, execCall_of_push ((pushPc_eq_push hpc).trans hu)⟩

theorem toNat_ofNat_of_lt {n : Nat} (h : n < memSize) : (BitVec.ofNat 8 n).toNat = n := Nat.mod_eq_of_lt h

/-! ### The obligations -/

/-- Settles O50: the register is checked, then the return address, then the cell of the push. -/
theorem callPushesReturnAddress : Obligations.CallPushesReturnAddress := by
  refine fun s hm => ⟨fun a => ⟨rfl, fun ha => execCall_invalid s ha⟩,
    fun a => ⟨fun hpc => ?_, fun hpc hf => ?_, fun hpc hw => ?_⟩⟩
  · exact execCall_of_fault a (pushPc_outside s hpc)
  · exact execCall_of_fault a (pushPc_forbidden hpc (writeForbidden_of_writeFaults hf))
  · obtain ⟨u, hu, hexec⟩ := exec_call hm a hpc hw
    exact ⟨_, hexec, hu.sp_one, by rw [applyControl_byteAt, hu.top, toNat_ofNat_of_lt hpc], rfl,
      (frame_of_pushed_one hu).control _, (controlKept_of_pushed hu).jumpTo _⟩

/-- Settles O51: RET is one pop into `pc`. -/
theorem retPopsPc : Obligations.RetPopsPc :=
  fun s => ⟨rfl, fun hsp => execRet_underflow hsp, fun hsp => ⟨_, execRet_ok hsp, rfl, State.setReg_reg_same s 7 _,
    (frame_setReg s 7 _).control _, ((controlKept_self s).setReg 7 _).jumpTo _⟩⟩

/-- Settles O52: the eight pops complete unless SP comes to 244 within them. -/
theorem iretPopsFrame : Obligations.IretPopsFrame := by
  refine fun s => ⟨rfl, fun hlow hhigh => ?_, fun hsp => ?_⟩
  · have hk : 244 - s.sp.toNat < 8 := by
      show 244 - (s.reg 7).toNat < 8
      omega
    exact execIret_underflow hk ((sp_add_eq_limit_iff hk).mpr (Nat.add_sub_cancel' hhigh))
  · have hne : ∀ k, k < 8 → s.sp + BitVec.ofNat 8 k ≠ spInit := fun k hk he => by
      have hsum : (s.reg 7).toNat + k = 244 := (sp_add_eq_limit_iff hk).mp he
      omega
    obtain ⟨u, hu, hexec⟩ := execIret_ok hne
    have hr5 : u.reg 5 = s.byteAt (s.reg 7).toNat := by
      have hpopped := hu.popped 0 (by decide)
      rwa [BitVec.add_zero] at hpopped
    exact ⟨_, hexec, hr5, hu.popped 1 (by decide), hu.popped 2 (by decide), hu.popped 3 (by decide),
      hu.popped 4 (by decide), hu.popped 5 (by decide), hu.fl, rfl, hu.sp, hu.status, hu.ie, hu.runStatus, hu.out,
      hu.byteAt, (hostKept_of_restored hu).trans (frame_applyControl u _).host⟩

/-- Settles O32: the RET finds SP at the saved address, so it goes there and SP comes back. -/
theorem callThenRet : Obligations.CallThenRet := by
  intro s a hm hpc hsp hw
  rw [frameCell_zero] at hw ⊢
  obtain ⟨u, hu, hcall⟩ := exec_call hm a hpc hw
  generalize ht : applyControl u (.jumpTo (s.reg a)) = t at hcall
  have htsp : t.sp = s.reg 7 - 1 := by rw [← ht, State.sp, applyControl_reg, hu.sp_one]
  have htop : t.byteAt t.sp.toNat = BitVec.ofNat 8 (s.pc + 2) := by rw [htsp, ← ht, applyControl_byteAt, hu.top]
  have hret := execRet_ok (htsp ▸ sp_sub_one_ne_limit hsp)
  rw [htop, htsp, BitVec.sub_add_cancel] at hret
  have hcalled : Frame [7] [(s.reg 7 - 1).toNat] s t := ht ▸ (frame_of_pushed_one hu).control _
  have hreturned := (hcalled.trans (frame_setReg t 7 (s.reg 7))).control (.jumpTo (BitVec.ofNat 8 (s.pc + 2)))
  have hback : (applyControl (t.setReg 7 (s.reg 7)) (.jumpTo (BitVec.ofNat 8 (s.pc + 2)))).reg 7 = s.reg 7 := by
    rw [applyControl_reg, State.setReg_reg_same]
  have hkept : ControlKept s t := ht ▸ (controlKept_of_pushed hu).jumpTo _
  exact ⟨t, _, hcall, by rw [← ht, applyControl_jumpTo_pc], hret, toNat_ofNat_of_lt hpc,
    hreturned.restored hback (by simp), (hkept.setReg 7 _).jumpTo _⟩

end Sys2Proof.Claims
end

section
/-! PROOFS. Interrupts and events (spec/60_exceptions.md): the entry that faults (R203), the return that undoes an entry
(R163 after R202), deliveries (R199) and their merging (R240, R241). -/

namespace Sys2Proof.Machine

/-! ### The cells of a frame, as numbers -/

theorem pushCell_eq (sp : Byte) {k : Nat} (hk : k < 8) : pushCell sp k = (sp.toNat + 255 - k) % 256 := by
  have hsp : sp.toNat < 256 := byte_lt sp
  simp only [pushCell, BitVec.ofNat_eq_ofNat, BitVec.toNat_sub, BitVec.toNat_ofNat]
  omega

/-- The pops read the frame from its last cell up: the `k`-th pop reads what the push number `7 - k` wrote. -/
theorem toNat_add_eq_pushCell (sp : Byte) {k : Nat} (hk : k < 8) :
    (sp - 8 + BitVec.ofNat 8 k).toNat = pushCell sp (7 - k) := by
  have hsp : sp.toNat < 256 := byte_lt sp
  rw [pushCell_eq sp (by omega)]
  simp only [BitVec.ofNat_eq_ofNat, BitVec.toNat_add, BitVec.toNat_sub, BitVec.toNat_ofNat]
  omega

/-- The SP before an entry, when one of the pops of the frame it saved meets the underflow limit. -/
theorem sp_of_frame_at_limit {sp : Byte} {k : Nat} (hk : k < 8) (h : (sp - 8).toNat + k = 244) :
    245 ≤ sp.toNat ∧ sp.toNat ≤ 252 := by
  have hsp : sp.toNat < 256 := byte_lt sp
  simp only [BitVec.ofNat_eq_ofNat, BitVec.toNat_sub, BitVec.toNat_ofNat] at h
  omega

/-- Under protection, with SP in 0..7, the first push that may not be made is the one that comes round to 255. -/
theorem interruptEntry_wraps {s : State} (n : Line) (hpc : s.pc < memSize) (hprotect : s.cfg.vtProtect = true)
    (hsp : s.sp.toNat < 8) : interruptEntry s n = .error (.addressingFault 255) := by
  have hcell : pushCell s.sp s.sp.toNat = 255 := by
    rw [pushCell_eq s.sp hsp]
    omega
  rw [← hcell]
  refine interruptEntry_forbidden hpc hsp (fun k hk => writeForbidden_eq_false.mpr ⟨pushCell_lt _ _, fun _ => ?_⟩)
    (writeForbidden_eq_true.mpr (.inr ⟨hprotect, ?_⟩))
  · show pushCell s.sp k < 248
    rw [pushCell_eq s.sp (by omega)]
    omega
  · rw [hcell]
    decide

/-- Under protection, with SP in 249..255, the very first push falls into the table. -/
theorem interruptEntry_in_table {s : State} (n : Line) (hpc : s.pc < memSize) (hprotect : s.cfg.vtProtect = true)
    (hsp : 249 ≤ s.sp.toNat) : interruptEntry s n = .error (.addressingFault (s.sp.toNat - 1)) := by
  have hlt : s.sp.toNat < 256 := byte_lt s.sp
  have hcell : pushCell s.sp 0 = s.sp.toNat - 1 := by
    rw [pushCell_eq s.sp (by decide)]
    omega
  rw [← hcell]
  refine interruptEntry_forbidden hpc (by decide) nofun (writeForbidden_eq_true.mpr (.inr ⟨hprotect, ?_⟩))
  rw [hcell]
  exact Nat.le_sub_one_of_lt hsp

/-! ### The pending bit of a line -/

theorem getLsbD_or_lineBit (b : Byte) (n k : Line) :
    (b ||| lineBit n).getLsbD k = (b.getLsbD k || decide (k = n)) := by
  have hbit : (lineBit n).getLsbD k = decide (k = n) := by revert n k; decide
  rw [BitVec.getLsbD_or, hbit]

theorem raiseLine_raiseLine (s : State) (n : Line) : raiseLine (raiseLine s n) n = raiseLine s n := by
  have hbits : s.intStatus ||| lineBit n ||| lineBit n = s.intStatus ||| lineBit n := by
    rw [BitVec.or_assoc, BitVec.or_self]
  simp only [raiseLine, State.intStatus, State.setReg_reg_same, State.setReg_setReg] at hbits ⊢
  rw [hbits]

theorem deliver_timer {s : State} (hs : s.status = .running) : deliver .timer s = raiseLine s s.cfg.timerLine :=
  if_pos hs

theorem deliver_input {s : State} (key : Option Byte) (hs : s.status = .running) :
    deliver (.input key) s =
      raiseLine { s with mem := Memory.write s.mem keyAddr (key.getD 0) } s.cfg.inputLine := if_pos hs

theorem raiseLine_getLsbD (s : State) (n k : Line) :
    ((raiseLine s n).reg 6).getLsbD k = ((s.reg 6).getLsbD k || decide (k = n)) := by
  rw [raiseLine_reg, if_pos rfl, getLsbD_or_lineBit]

theorem transition_timer {s : State} (hs : s.status = .running) :
    transition (.deliver .timer) s = .next (raiseLine s s.cfg.timerLine) := by
  rw [← deliver_timer hs]
  exact transition_running _ hs

theorem transition_input {s : State} (key : Option Byte) (hs : s.status = .running) :
    transition (.deliver (.input key)) s =
      .next (raiseLine { s with mem := Memory.write s.mem keyAddr (key.getD 0) } s.cfg.inputLine) := by
  rw [← deliver_input key hs]
  exact transition_running _ hs

theorem deliver_timer_twice {s : State} (hs : s.status = .running) :
    deliver .timer (deliver .timer s) = deliver .timer s := by
  rw [deliver_timer hs, deliver_timer (s := raiseLine s s.cfg.timerLine) hs]
  exact raiseLine_raiseLine s _

/-- The later deposit hides the earlier one, and the line is raised once. -/
theorem deliver_input_twice {s : State} (hm : Memory.wf s.mem) (hs : s.status = .running) (k l : Option Byte) :
    deliver (.input l) (deliver (.input k) s) = deliver (.input l) s := by
  have hdeposits := Memory.write_write hm (by decide : keyAddr < memSize) (k.getD 0) (l.getD 0)
  rw [deliver_input k hs, deliver_input l hs,
    deliver_input l (s := raiseLine { s with mem := Memory.write s.mem keyAddr (k.getD 0) } s.cfg.inputLine) hs,
    raiseLine_mem, hdeposits]
  exact raiseLine_raiseLine { s with mem := Memory.write s.mem keyAddr (l.getD 0) } _

end Sys2Proof.Machine

namespace Sys2Proof.Claims

open Sys2Proof.Machine

/-! ### The entry of a quiet interface -/

theorem exists_pendingLine {s : State} (hie : s.ie = true) (h : ∃ n, Eligible s n) : ∃ n, pendingLine s = some n := by
  refine Option.ne_none_iff_exists'.mp fun hnone => ?_
  obtain ⟨n, hn⟩ := h
  rcases noInterrupt_iff.mpr hnone with hoff | hall
  · rw [hie] at hoff
    cases hoff
  · exact hall n hn

theorem step_eq_settle_entry {s : State} {n : Line} (hidle : Idle s) (hn : pendingLine s = some n) :
    step s = settle s (interruptEntry s n) := by
  rw [step_eq_iterate hidle.ready, iterate, hn]

/-- What an entry has left for the return: SP 8 lower, and above it the bytes of the frame, the last one pushed
first. -/
structure Entered (s t : State) : Prop where
  pc : s.pc < memSize
  sp : t.sp = s.sp - 8
  saved : ∀ k : Fin 8, t.byteAt (t.sp + BitVec.ofNat 8 k).toNat = (frameBytes s)[7 - k.val]'(by
    rw [frameBytes_length]; omega)
  status : t.status = s.status
  out : t.out = s.out
  host : HostKept s t

theorem entry_sp {s u : State} {n : Line} (hu : Pushed (entryStart s n) u (frameBytes s)) : u.sp = s.sp - 8 :=
  hu.reg_sp.trans (by rw [entryStart_reg_other s n (by decide)]; rfl)

theorem entered_of_pushed {s u : State} {n : Line} (hpc : s.pc < memSize)
    (hu : Pushed (entryStart s n) u (frameBytes s)) (vector : Byte) : Entered s (applyControl u (.jumpTo vector)) where
  pc := hpc
  sp := (applyControl_reg u _ 7).trans (entry_sp hu)
  saved k := by
    have hsp : (applyControl u (.jumpTo vector)).sp = s.sp - 8 := (applyControl_reg u _ 7).trans (entry_sp hu)
    rw [hsp, toNat_add_eq_pushCell s.sp k.isLt, ← entryStart_sp s n]
    exact hu.cells (7 - k.val) _
  status := (controlKept_of_pushed hu).status
  out := (controlKept_of_pushed hu).out
  host := (frame_entry hu vector).host

/-- A step that takes an interrupt without a fault. -/
theorem entered_of_step {s t : State} (hidle : Idle s) (hm : Memory.wf s.mem) (hie : s.ie = true)
    (heligible : ∃ n, Eligible s n) (h : step s = .next t) (hsafe : t.Safe) : Entered s t := by
  obtain ⟨n, hn⟩ := exists_pendingLine hie heligible
  rw [step_eq_settle_entry hidle hn] at h
  rcases settle_cases h with hentry | ⟨f, -, rfl⟩
  · obtain ⟨hpc, -, u, hu, rfl⟩ := interruptEntry_eq_ok hm hentry
    exact entered_of_pushed hpc hu _
  · exact absurd (raise_status s f) (hsafe f)

/-- The pops of a return right after the entry give every register but R6, which is no part of the frame, its old
value. -/
theorem Entered.registers_back {s t u : State} (h : Entered s t) (hu : Restored t u) {r : Fin 8} (hr : r ≠ 6) :
    u.reg r = s.reg r := by
  match r with
  | 0 => exact (hu.popped 5 (by decide)).trans (h.saved 5)
  | 1 => exact (hu.popped 4 (by decide)).trans (h.saved 4)
  | 2 => exact (hu.popped 3 (by decide)).trans (h.saved 3)
  | 3 => exact (hu.popped 2 (by decide)).trans (h.saved 2)
  | 4 => exact (hu.popped 1 (by decide)).trans (h.saved 1)
  | 5 => exact (hu.popped 0 (by decide)).trans (h.saved 0)
  | 6 => exact absurd rfl hr
  | 7 => exact hu.sp.trans (by rw [h.sp, BitVec.sub_add_cancel])

/-! ### The obligations -/

/-- Settles O18: an entry that faults is undone as a whole, and the fault is that of `pc` or of the first cell that may
not be written. -/
theorem interruptEntryFaults : Obligations.InterruptEntryFaults := by
  intro s hidle hie heligible
  obtain ⟨n, hn⟩ := exists_pendingLine hie heligible
  rw [step_eq_settle_entry hidle hn]
  refine ⟨fun hpc => ?_, fun hpc hprotect hsp => ?_, fun hpc hprotect hsp => ?_⟩
  · rw [interruptEntry_outside n hpc]
    rfl
  · rw [interruptEntry_wraps n hpc hprotect hsp]
    rfl
  · rw [interruptEntry_in_table n hpc hprotect hsp]
    rfl

/-- Settles O19: the entry left SP 8 lower with the frame above it, so the eight pops read back what the eight pushes
wrote. -/
theorem iretRestoresInterruptedState : Obligations.IretRestoresInterruptedState := by
  intro s t hidle hm hie heligible h hsafe hlimit
  have hent := entered_of_step hidle hm hie heligible h hsafe
  have hne : ∀ k, k < 8 → t.sp + BitVec.ofNat 8 k ≠ spInit := fun k hk he => by
    rw [sp_add_eq_limit_iff hk, hent.sp] at he
    exact hlimit (sp_of_frame_at_limit hk he)
  obtain ⟨u, hu, hexec⟩ := execIret_ok hne
  have hpc : (t.byteAt (t.sp + 7).toNat).toNat = s.pc := by
    have hsaved : t.byteAt (t.sp + 7).toNat = BitVec.ofNat 8 s.pc := hent.saved 7
    rw [hsaved, toNat_ofNat_of_lt hent.pc]
  exact ⟨_, hexec, hpc, hu.fl.trans (hent.saved 6), hu.ie, fun r hr => hent.registers_back hu hr, hu.status, hu.byteAt,
    hu.runStatus.trans hent.status, hu.out.trans hent.out,
    hent.host.trans ((hostKept_of_restored hu).trans (frame_applyControl u _).host)⟩

/-- Settles O21: a delivery to a running machine is `raiseLine`, after the deposit when it is an input. -/
theorem deliverySetsPendingBit : Obligations.DeliverySetsPendingBit := by
  refine fun s hs hm => ⟨⟨_, transition_timer hs, fun k => raiseLine_getLsbD s _ k, rfl, frame_setReg s 6 _,
    (controlKept_self s).setReg 6 _⟩, fun key => ?_⟩
  have hdeposit := frame_write hm keyAddr (key.getD 0)
  exact ⟨_, transition_input key hs, fun k => raiseLine_getLsbD _ _ k, byteAt_write hm keyAddr _, rfl,
    hdeposit.trans (frame_setReg _ 6 _), rfl, rfl, rfl, rfl⟩

/-- Settles O23: raising a line twice is raising it once, and the second deposit hides the first; a machine that is not
running takes neither. -/
theorem repeatedFiringsMerge : Obligations.RepeatedFiringsMerge := by
  intro s hm
  by_cases hs : s.status = .running
  · exact ⟨deliver_timer_twice hs, deliver_input_twice hm hs⟩
  · exact ⟨by simp only [deliver_not_running .timer hs], fun k l => by rw [deliver_not_running (.input k) hs]⟩

end Sys2Proof.Claims
end

section
/-! PROOFS. The rest of the ALU (spec/41_arithmetic.md R123..R127, 42_bitwise.md R135, R136): MOD, CMP, the shifts, and
the operations without an opcode; with CMP the conditional branches (44_branch.md R150..R153). -/

namespace Sys2Proof.Machine

/-! ### The operations, on registers that exist -/

theorem aluApply_modulo_zero {s : State} (a : Fin 8) {b : Fin 8} (h : s.reg b = 0) :
    aluApply .modulo (regIndex a) (.register (regIndex b)) s = .error (.divisionByZero s.pc) := by
  simp only [aluApply, readSource, readReg_regIndex, ok_bind, if_pos h]

theorem aluApply_modulo {s : State} (a : Fin 8) {b : Fin 8} (h : s.reg b ≠ 0) :
    aluApply .modulo (regIndex a) (.register (regIndex b)) s = .ok (s.setReg a (modBytes (s.reg a) (s.reg b))) := by
  simp only [aluApply, readSource, readReg_regIndex, ok_bind, if_neg h, writeReg_regIndex]

theorem aluApply_compare (s : State) (a b : Fin 8) :
    aluApply .compare (regIndex a) (.register (regIndex b)) s =
      .ok { s with fl := compareFlags s.fl (s.reg a) (s.reg b) } := by
  simp only [aluApply, readSource, readReg_regIndex, ok_bind]

theorem aluApply_shiftLeft (s : State) (a b : Fin 8) :
    aluApply .shiftLeft (regIndex a) (.register (regIndex b)) s = .ok (s.setReg a (shlBytes (s.reg a) (s.reg b))) := by
  simp only [aluApply, readSource, readReg_regIndex, ok_bind, writeReg_regIndex]

theorem aluApply_shiftRight (s : State) (a b : Fin 8) :
    aluApply .shiftRight (regIndex a) (.register (regIndex b)) s = .ok (s.setReg a (shrBytes (s.reg a) (s.reg b))) := by
  simp only [aluApply, readSource, readReg_regIndex, ok_bind, writeReg_regIndex]

theorem aluApply_addImmediate (s : State) (a : Fin 8) (v : Byte) :
    aluApply .addImmediate (regIndex a) (.immediate v) s = .ok (s.setReg a (addBytes (s.reg a) v)) := by
  simp only [aluApply, readSource, readReg_regIndex, ok_bind, writeReg_regIndex]

theorem aluApply_increment (s : State) (a : Fin 8) :
    aluApply .increment (regIndex a) .unary s = .ok (s.setReg a (wrap8 ((s.reg a).toNat + 1))) := by
  simp only [aluApply, readSource, readReg_regIndex, ok_bind, writeReg_regIndex]

theorem aluApply_decrement (s : State) (a : Fin 8) :
    aluApply .decrement (regIndex a) .unary s = .ok (s.setReg a (s.reg a - 1)) := by
  simp only [aluApply, readSource, readReg_regIndex, ok_bind, writeReg_regIndex]

/-! ### The bytes they write -/

/-- A remainder is no more than the dividend, so `wrap8` changes nothing. -/
theorem modBytes_toNat (va vb : Byte) : (modBytes va vb).toNat = va.toNat % vb.toNat := by
  rw [modBytes, BitVec.toNat_ofNat]
  exact Nat.mod_eq_of_lt (Nat.lt_of_le_of_lt (Nat.mod_le _ _) (byte_lt va))

theorem shlBytes_toNat (va n : Byte) : (shlBytes va n).toNat = va.toNat * 2 ^ n.toNat % 256 := BitVec.toNat_ofNat ..

theorem shrBytes_toNat (va n : Byte) : (shrBytes va n).toNat = va.toNat / 2 ^ n.toNat := by
  rw [shrBytes, BitVec.toNat_ofNat]
  exact Nat.mod_eq_of_lt (Nat.lt_of_le_of_lt (Nat.div_le_self _ _) (byte_lt va))

theorem shlBytes_eq_zero (va : Byte) {n : Byte} (h : 8 ≤ n.toNat) : shlBytes va n = 0 := by
  have hdvd : 256 ∣ va.toNat * 2 ^ n.toNat := Dvd.dvd.mul_left (Nat.pow_dvd_pow 2 h) _
  exact BitVec.eq_of_toNat_eq ((shlBytes_toNat va n).trans (Nat.mod_eq_zero_of_dvd hdvd))

theorem shrBytes_eq_zero (va : Byte) {n : Byte} (h : 8 ≤ n.toNat) : shrBytes va n = 0 := by
  have hlt : va.toNat < 2 ^ n.toNat := Nat.lt_of_lt_of_le (byte_lt va) (Nat.pow_le_pow_right Nat.two_pos h)
  exact BitVec.eq_of_toNat_eq ((shrBytes_toNat va n).trans (Nat.div_eq_of_lt hlt))

theorem sub_one_toNat (v : Byte) : (v - 1).toNat = (v.toNat + 255) % 256 := by
  simp only [BitVec.ofNat_eq_ofNat, BitVec.toNat_sub, BitVec.toNat_ofNat]
  omega

/-! ### The compare -/

theorem getLsbD_two_pow {j : Nat} (hj : j < 8) (k : Nat) : (BitVec.ofNat 8 (2 ^ j)).getLsbD k = decide (k = j) := by
  rw [BitVec.getLsbD_ofNat, Nat.testBit_two_pow]
  rcases eq_or_ne k j with rfl | hne
  · simp [hj]
  · simp [hne, hne.symm]

/-- R124: of the three outcomes, which exclude each other, the compare ORs in the bit of the one that holds. -/
theorem getLsbD_compareFlags (fl va vb : Byte) (k : Nat) :
    (compareFlags fl va vb).getLsbD k = (fl.getLsbD k ||
      decide (k = 0 ∧ va.toNat = vb.toNat ∨ k = 1 ∧ vb.toNat < va.toNat ∨ k = 2 ∧ va.toNat < vb.toNat)) := by
  rw [compareFlags]
  split
  case isTrue heq =>
    have hbit : (0b00000001 : Byte).getLsbD k = decide (k = 0) := getLsbD_two_pow (j := 0) (by decide) k
    rw [BitVec.getLsbD_or, hbit, heq]
    simp
  case isFalse hne =>
    rw [← BitVec.toNat_inj] at hne
    split
    case isTrue hgt =>
      have hbit : (0b00000010 : Byte).getLsbD k = decide (k = 1) := getLsbD_two_pow (j := 1) (by decide) k
      rw [BitVec.getLsbD_or, hbit]
      simp [hne, hgt, Nat.lt_asymm hgt]
    case isFalse hle =>
      have hlt : va.toNat < vb.toNat := by omega
      have hbit : (0b00000100 : Byte).getLsbD k = decide (k = 2) := getLsbD_two_pow (j := 2) (by decide) k
      rw [BitVec.getLsbD_or, hbit]
      simp [hne, hlt, hle]

/-! ### The conditional branches -/

theorem execJeq_regIndex (s : State) (a : Fin 8) :
    execJeq (regIndex a) s = .next (applyControl s (if flEqual s.fl then .jumpTo (s.reg a) else .advance 2)) := by
  simp only [execJeq, readReg_regIndex, ok_bind, pure_eq_ok, complete_ok]

theorem execJeq_invalid (s : State) {a : Byte} (h : 8 ≤ a.toNat) :
    execJeq a s = .next (raise s (.invalidRegister a)) := by
  simp only [execJeq, readReg_invalid s h, error_bind, complete_error]

theorem execJne_regIndex (s : State) (a : Fin 8) :
    execJne (regIndex a) s = .next (applyControl s (if flEqual s.fl then .advance 2 else .jumpTo (s.reg a))) := by
  simp only [execJne, readReg_regIndex, ok_bind, pure_eq_ok, complete_ok]

theorem execJne_invalid (s : State) {a : Byte} (h : 8 ≤ a.toNat) :
    execJne a s = .next (raise s (.invalidRegister a)) := by
  simp only [execJne, readReg_invalid s h, error_bind, complete_error]

end Sys2Proof.Machine

namespace Sys2Proof.Claims

open Sys2Proof.Machine

theorem exec_cmp (s : State) (a b : Fin 8) :
    exec (.cmp (regIndex a) (regIndex b)) s =
      .next (applyControl { s with fl := compareFlags s.fl (s.reg a) (s.reg b) } (.advance 3)) :=
  aluInstruction_of_ok 3 (aluApply_compare s a b)

theorem exec_jeq (s : State) (a : Fin 8) :
    exec (.jeq (regIndex a)) s =
      .next (applyControl s (if flEqual s.fl then .jumpTo (s.reg a) else .advance 2)) := execJeq_regIndex s a

theorem exec_jne (s : State) (a : Fin 8) :
    exec (.jne (regIndex a)) s =
      .next (applyControl s (if flEqual s.fl then .advance 2 else .jumpTo (s.reg a))) := execJne_regIndex s a

theorem frame_flags (s : State) (fl : Byte) : Frame [] [] s { s with fl := fl } where
  registers _ _ := rfl
  memory _ _ := rfl
  host := ⟨rfl, rfl, rfl, rfl, rfl⟩

/-- A conditional branch goes to the one place or the other by bit 0 of FL, and changes nothing but `pc`. -/
theorem onlySetsPc_of_branch {i : Instr} {s : State} {taken other : ControlAction}
    (h : exec i s = .next (applyControl s (if flEqual s.fl then taken else other)))
    (htaken : (applyControl s taken).status = s.status) (hother : (applyControl s other).status = s.status) :
    ∃ t, OnlySetsPc i s t (if s.fl.getLsbD 0 = true then (applyControl s taken).pc else (applyControl s other).pc) := by
  have hbit : flEqual s.fl = s.fl.getLsbD 0 := rfl
  cases hfl : s.fl.getLsbD 0 with
  | true =>
    rw [hbit, hfl, if_pos rfl] at h
    exact ⟨_, onlySetsPc_of_exec h htaken⟩
  | false =>
    rw [hbit, hfl, if_neg Bool.false_ne_true] at h
    exact ⟨_, onlySetsPc_of_exec h hother⟩

/-! ### The obligations -/

/-- Settles O35: the checks are those of every ALU instruction; the divisor is looked at after them. -/
theorem modWritesRemainder : Obligations.ModWritesRemainder := by
  refine fun s => ⟨fun a b => ⟨rfl, checksTwo_of_alu (op := .modulo) rfl⟩, fun a b => ⟨fun hzero => ?_, fun hne => ?_⟩⟩
  · exact stopsWith_of_alu (op := .modulo) rfl (aluApply_modulo_zero a hzero)
  · obtain ⟨t, ht, hreg⟩ := writesRegister_of_alu (i := .mod (regIndex a) (regIndex b)) rfl (aluApply_modulo a hne)
    exact ⟨t, ht, by rw [hreg, modBytes_toNat]⟩

/-- Settles O36: the compare writes FL alone, one bit ORed in. -/
theorem cmpOrsOneFlag : Obligations.CmpOrsOneFlag := by
  refine fun s => ⟨fun a b => ⟨rfl, checksTwo_of_alu (op := .compare) rfl⟩, fun a b => ?_⟩
  exact ⟨_, exec_cmp s a b, getLsbD_compareFlags s.fl (s.reg a) (s.reg b), rfl, (frame_flags s _).control _,
    rfl, rfl, rfl⟩

/-- Settles O37: after the compare of equal values bit 0 of FL is 1, so JEQ jumps and JNE advances, from `pc + 3`. -/
theorem equalCompareDecidesBranches : Obligations.EqualCompareDecidesBranches := by
  intro s a b c hab
  refine ⟨_, exec_cmp s a b, ?_⟩
  generalize ht : applyControl { s with fl := compareFlags s.fl (s.reg a) (s.reg b) } (.advance 3) = t
  have hfl : flEqual t.fl = true := by
    rw [← ht, applyControl_fl, flEqual, getLsbD_compareFlags, hab]
    simp
  have hpc : t.pc = s.pc + 3 := by rw [← ht, applyControl_advance_pc]
  have hreg : t.reg c = s.reg c := by rw [← ht, applyControl_reg]; rfl
  constructor
  · rw [exec_jeq, if_pos hfl, applyControl, hreg]
  · rw [exec_jne, if_pos hfl, applyControl, hpc]

/-- Settles O38: each operation writes one register, as those with an opcode do. -/
theorem aluOperationsWithoutOpcode : Obligations.AluOperationsWithoutOpcode := by
  refine fun s r v => ⟨⟨_, aluApply_addImmediate s r v, ?_, frame_setReg s r _, (controlKept_self s).setReg r _, rfl⟩,
    ⟨_, aluApply_increment s r, ?_, frame_setReg s r _, (controlKept_self s).setReg r _, rfl⟩,
    ⟨_, aluApply_decrement s r, ?_, frame_setReg s r _, (controlKept_self s).setReg r _, rfl⟩⟩
  · rw [State.setReg_reg_same, addBytes_toNat]
  · rw [State.setReg_reg_same, BitVec.toNat_ofNat]
  · rw [State.setReg_reg_same, sub_one_toNat]

/-- Settles O41: a count of 8 or more makes the product a multiple of 256, and the quotient 0. -/
theorem shiftsByWholeByte : Obligations.ShiftsByWholeByte := by
  refine fun s => ⟨fun a b => ⟨rfl, rfl, checksTwo_of_alu (op := .shiftLeft) rfl,
    checksTwo_of_alu (op := .shiftRight) rfl⟩, fun a b => ⟨?_, ?_⟩⟩
  · obtain ⟨t, ht, hreg⟩ := writesRegister_of_alu (i := .shl (regIndex a) (regIndex b)) rfl (aluApply_shiftLeft s a b)
    exact ⟨t, ht, by rw [hreg, shlBytes_toNat], fun h => by rw [hreg, shlBytes_eq_zero _ h]⟩
  · obtain ⟨t, ht, hreg⟩ := writesRegister_of_alu (i := .shr (regIndex a) (regIndex b)) rfl (aluApply_shiftRight s a b)
    exact ⟨t, ht, by rw [hreg, shrBytes_toNat], fun h => by rw [hreg, shrBytes_eq_zero _ h]⟩

/-- Settles O49: the register is read, and so checked, before FL decides. -/
theorem conditionalBranches : Obligations.ConditionalBranches := by
  refine fun s => ⟨fun a => ⟨rfl, rfl, fun ha => execJeq_invalid s ha, fun ha => execJne_invalid s ha⟩,
    fun a => ⟨?_, ?_⟩⟩
  · exact onlySetsPc_of_branch (exec_jeq s a) rfl rfl
  · exact onlySetsPc_of_branch (exec_jne s a) rfl rfl

end Sys2Proof.Claims
end

section
/-! PROOFS. The console output (spec/46_halt_and_output.md R171, R172). -/

namespace Sys2Proof.Machine

theorem execPrn_regIndex (s : State) (a : Fin 8) :
    execPrn (regIndex a) s = .next (applyControl (emit s (.printNumber (regIndex a) (s.reg a))) (.advance 2)) := by
  simp only [execPrn, readReg_regIndex, ok_bind, pure_eq_ok, complete_ok]

theorem execPrn_invalid (s : State) {a : Byte} (h : 8 ≤ a.toNat) :
    execPrn a s = .next (raise s (.invalidRegister a)) := by
  simp only [execPrn, readReg_invalid s h, error_bind, complete_error]

theorem execPra_zero {s : State} {a : Fin 8} (h : s.reg a = 0) :
    execPra (regIndex a) s = .next (applyControl s (.advance 2)) := by
  simp only [execPra, readReg_regIndex, ok_bind, pure_eq_ok, complete_ok, if_pos h]

theorem execPra_nonzero {s : State} {a : Fin 8} (h : s.reg a ≠ 0) :
    execPra (regIndex a) s = .next (applyControl (emit s (.printChar (s.reg a))) (.advance 2)) := by
  simp only [execPra, readReg_regIndex, ok_bind, pure_eq_ok, complete_ok, if_neg h]

theorem execPra_invalid (s : State) {a : Byte} (h : 8 ≤ a.toNat) :
    execPra a s = .next (raise s (.invalidRegister a)) := by
  simp only [execPra, readReg_invalid s h, error_bind, complete_error]

end Sys2Proof.Machine

namespace Sys2Proof.Claims

open Sys2Proof.Machine

theorem frame_emit (s : State) (e : OutEvent) : Frame [] [] s (emit s e) where
  registers _ _ := rfl
  memory _ _ := rfl
  host := ⟨rfl, rfl, rfl, rfl, rfl⟩

/-- Settles O54: the read of the register is the only check, and the event is appended. -/
theorem prnEmitsNumber : Obligations.PrnEmitsNumber := by
  refine fun s => ⟨fun a => ⟨rfl, fun ha => execPrn_invalid s ha⟩, fun a => ?_, by decide⟩
  exact ⟨_, execPrn_regIndex s a, rfl, rfl, (frame_emit s _).control _, rfl, rfl, rfl⟩

/-- Settles O55: by whether the byte is 0. -/
theorem praEmitsCharacter : Obligations.PraEmitsCharacter := by
  refine fun s => ⟨fun a => ⟨rfl, fun ha => execPra_invalid s ha⟩, fun a => ?_⟩
  by_cases hv : s.reg a = 0
  · exact ⟨_, execPra_zero hv, fun _ => rfl, fun hne => absurd hv hne, rfl, frame_applyControl s _, rfl, rfl, rfl⟩
  · exact ⟨_, execPra_nonzero hv, fun h0 => absurd h0 hv, fun _ => rfl, rfl, (frame_emit s _).control _, rfl, rfl, rfl⟩

end Sys2Proof.Claims
end

section
/-! PROOFS. InvalidRegister (spec/60_exceptions.md R185, R192 item 6; 30_encoding.md R91): what an instruction answers
when a register operand names no register, and how it ends when they all do. -/

namespace Sys2Proof

theorem exists_regIndex_of_valid {b : Byte} (h : validRegister b = true) : ∃ r, b = regIndex r :=
  Machine.exists_regIndex (of_decide_eq_true h)

theorem wellFormed_one {i : Instr} {a : Byte} (hops : i.registerOperands = [a]) (h : i.wellFormed = true) :
    ∃ r, a = regIndex r := by
  rw [Instr.wellFormed, hops, List.all_cons, Bool.and_eq_true] at h
  exact exists_regIndex_of_valid h.1

theorem wellFormed_two {i : Instr} {a b : Byte} (hops : i.registerOperands = [a, b]) (h : i.wellFormed = true) :
    (∃ r, a = regIndex r) ∧ ∃ q, b = regIndex q := by
  rw [Instr.wellFormed, hops, List.all_cons, List.all_cons, Bool.and_eq_true, Bool.and_eq_true] at h
  obtain ⟨ha, hb, -⟩ := h
  exact ⟨exists_regIndex_of_valid ha, exists_regIndex_of_valid hb⟩

end Sys2Proof

namespace Sys2Proof.Machine

/-- An ALU operation on registers that exist completes with the run status as it was, or raises DivisionByZero. -/
theorem aluApply_ends {s : State} {src : AluSource} {vb : Byte} (op : AluOp) (a : Fin 8)
    (hsrc : readSource s src = .ok vb) :
    (∃ t, aluApply op (regIndex a) src s = .ok t ∧ t.status = s.status) ∨
      aluApply op (regIndex a) src s = .error (.divisionByZero s.pc) := by
  simp only [aluApply, readReg_regIndex, hsrc, ok_bind, writeReg_regIndex]
  cases op with
  | modulo =>
    by_cases hzero : vb = 0
    · exact .inr (if_pos hzero)
    · exact .inl ⟨_, if_neg hzero, rfl⟩
  | _ => exact .inl ⟨_, rfl, rfl⟩

end Sys2Proof.Machine

namespace Sys2Proof.Claims

open Sys2Proof.Machine

/-! ### A register operand that names no register -/

theorem stopsWith_of_checksOne {i : Instr} {a r : Byte} {s : State} (h : ChecksOne i a s)
    (hops : i.registerOperands = [a]) (hr : i.firstInvalid = some r) : StopsWith i s (.invalidRegister r) := by
  rw [Instr.firstInvalid, hops] at hr
  obtain ⟨hinvalid, hra⟩ : 8 ≤ a.toNat ∧ a = r := by simpa [validRegister] using hr
  exact hra ▸ h hinvalid

theorem stopsWith_of_checksTwo {i : Instr} {a b r : Byte} {s : State} (h : ChecksTwo i a b s)
    (hops : i.registerOperands = [a, b]) (hr : i.firstInvalid = some r) : StopsWith i s (.invalidRegister r) := by
  obtain ⟨hfirst, hsecond⟩ := h
  rw [Instr.firstInvalid, hops] at hr
  rcases Nat.lt_or_ge a.toNat 8 with ha | ha
  · obtain ⟨hb, hrb⟩ : 8 ≤ b.toNat ∧ b = r := by simpa [validRegister, ha] using hr
    exact hrb ▸ hsecond ha hb
  · obtain rfl : a = r := by simpa [validRegister, Nat.not_lt.mpr ha] using hr
    exact hfirst ha

theorem stopsWith_firstInvalid {i : Instr} {s : State} {r : Byte} (hr : i.firstInvalid = some r) :
    StopsWith i s (.invalidRegister r) := by
  cases i with
  | hlt => cases hr
  | ret => cases hr
  | iret => cases hr
  | ldi a v => exact stopsWith_of_checksOne (a := a) (fun ha => execLdi_invalid s v ha) rfl hr
  | prn a => exact stopsWith_of_checksOne (a := a) (fun ha => execPrn_invalid s ha) rfl hr
  | push a => exact stopsWith_of_checksOne (a := a) (fun ha => execPush_invalid s ha) rfl hr
  | pop a => exact stopsWith_of_checksOne (a := a) (fun ha => execPop_invalid s ha) rfl hr
  | jmp a => exact stopsWith_of_checksOne (a := a) (fun ha => execJmp_invalid s ha) rfl hr
  | pra a => exact stopsWith_of_checksOne (a := a) (fun ha => execPra_invalid s ha) rfl hr
  | call a => exact stopsWith_of_checksOne (a := a) (fun ha => execCall_invalid s ha) rfl hr
  | jeq a => exact stopsWith_of_checksOne (a := a) (fun ha => execJeq_invalid s ha) rfl hr
  | jne a => exact stopsWith_of_checksOne (a := a) (fun ha => execJne_invalid s ha) rfl hr
  | not a => exact stopsWith_of_checksOne (checksOne_of_alu (a := a) (op := .not) (src := .unary) rfl) rfl hr
  | st a b => exact stopsWith_of_checksTwo (checksTwo_st a b s) rfl hr
  | ld a b => exact stopsWith_of_checksTwo (checksTwo_ld a b s) rfl hr
  | mul a b => exact stopsWith_of_checksTwo (checksTwo_of_alu (op := .multiply) rfl) rfl hr
  | add a b => exact stopsWith_of_checksTwo (checksTwo_of_alu (op := .add) rfl) rfl hr
  | cmp a b => exact stopsWith_of_checksTwo (checksTwo_of_alu (op := .compare) rfl) rfl hr
  | and a b => exact stopsWith_of_checksTwo (checksTwo_of_alu (op := .and) rfl) rfl hr
  | or a b => exact stopsWith_of_checksTwo (checksTwo_of_alu (op := .or) rfl) rfl hr
  | xor a b => exact stopsWith_of_checksTwo (checksTwo_of_alu (op := .xor) rfl) rfl hr
  | shl a b => exact stopsWith_of_checksTwo (checksTwo_of_alu (op := .shiftLeft) rfl) rfl hr
  | shr a b => exact stopsWith_of_checksTwo (checksTwo_of_alu (op := .shiftRight) rfl) rfl hr
  | mod a b => exact stopsWith_of_checksTwo (checksTwo_of_alu (op := .modulo) rfl) rfl hr

/-! ### Register operands that all name registers -/

/-- `i` ends in a control action on a state with the run status as it was, or stops with a fault other than
InvalidRegister. -/
def EndsOtherwise (i : Instr) (s : State) : Prop :=
  (∃ u c, exec i s = .next (applyControl u c) ∧ u.status = s.status) ∨
    ∃ f, StopsWith i s f ∧ ∀ r, f ≠ .invalidRegister r

theorem EndsOtherwise.not_invalid {i : Instr} {s t : State} (h : EndsOtherwise i s) (hrun : s.status = .running)
    (ht : exec i s = .next t) (r : Byte) : t.status ≠ .faulted (.invalidRegister r) := by
  rcases h with ⟨u, c, hu, hstatus⟩ | ⟨f, hf, hne⟩
  · cases ht.symm.trans hu
    cases c with
    | advance n => rw [applyControl_advance_status, hstatus, hrun]; nofun
    | jumpTo target => rw [applyControl_jumpTo_status, hstatus, hrun]; nofun
    | halt => nofun
  · cases ht.symm.trans hf
    exact fun he => hne r (RunStatus.faulted.inj he)

section
variable {i : Instr} {s : State}

theorem endsOtherwise_of_completes {u : State} {c : ControlAction} (h : exec i s = .next (applyControl u c))
    (hu : u.status = s.status) : EndsOtherwise i s := .inl ⟨u, c, h, hu⟩

theorem endsOtherwise_of_addressing {addr : Nat} (h : StopsWith i s (.addressingFault addr)) : EndsOtherwise i s :=
  .inr ⟨_, h, nofun⟩

theorem endsOtherwise_of_underflow (h : StopsWith i s (.stackUnderflow spInit)) : EndsOtherwise i s :=
  .inr ⟨_, h, nofun⟩

theorem endsOtherwise_of_alu {op : AluOp} {a : Fin 8} {src : AluSource} {vb : Byte} {len : Nat}
    (hexec : exec i s = aluInstruction op (regIndex a) src len s) (hsrc : readSource s src = .ok vb) :
    EndsOtherwise i s := by
  rcases aluApply_ends op a hsrc with ⟨t, ht, hstatus⟩ | hdiv
  · exact endsOtherwise_of_completes (hexec.trans (aluInstruction_of_ok len ht)) hstatus
  · exact .inr ⟨_, stopsWith_of_alu hexec hdiv, nofun⟩

/-- Two register operands that exist, of an ALU instruction: neither read can fail. -/
theorem endsOtherwise_of_alu_two {op : AluOp} {a b : Byte} {len : Nat} (hops : i.registerOperands = [a, b])
    (hexec : exec i s = aluInstruction op a (.register b) len s) (h : i.wellFormed = true) : EndsOtherwise i s := by
  obtain ⟨⟨r, rfl⟩, q, rfl⟩ := wellFormed_two hops h
  exact endsOtherwise_of_alu hexec (readReg_regIndex s q)

end

theorem endsOtherwise_st (s : State) (a b : Fin 8) : EndsOtherwise (.st (regIndex a) (regIndex b)) s := by
  cases hw : writeForbidden s (s.reg a).toNat with
  | false => exact endsOtherwise_of_completes (execSt_ok a b hw) rfl
  | true => exact endsOtherwise_of_addressing (execSt_forbidden a b hw)

theorem endsOtherwise_push (s : State) (a : Fin 8) : EndsOtherwise (.push (regIndex a)) s := by
  cases hw : writeForbidden s (s.sp - 1).toNat with
  | false => exact endsOtherwise_of_completes (execPush_of_push (push_ok _ hw)) rfl
  | true => exact endsOtherwise_of_addressing (execPush_forbidden a hw)

theorem endsOtherwise_pop (s : State) (a : Fin 8) : EndsOtherwise (.pop (regIndex a)) s := by
  by_cases hsp : s.sp = spInit
  · exact endsOtherwise_of_underflow (execPop_underflow a hsp)
  · exact endsOtherwise_of_completes (execPop_ok a hsp) rfl

theorem endsOtherwise_pra (s : State) (a : Fin 8) : EndsOtherwise (.pra (regIndex a)) s := by
  by_cases hv : s.reg a = 0
  · exact endsOtherwise_of_completes (execPra_zero hv) rfl
  · exact endsOtherwise_of_completes (execPra_nonzero hv) rfl

theorem endsOtherwise_call (s : State) (a : Fin 8) : EndsOtherwise (.call (regIndex a)) s := by
  rcases Nat.lt_or_ge (s.pc + 2) memSize with hpc | hpc
  · cases hw : writeForbidden s (s.sp - 1).toNat with
    | false => exact endsOtherwise_of_completes (execCall_of_push ((pushPc_eq_push hpc).trans (push_ok _ hw))) rfl
    | true => exact endsOtherwise_of_addressing (execCall_of_fault a (pushPc_forbidden hpc hw))
  · exact endsOtherwise_of_addressing (execCall_of_fault a (pushPc_outside s hpc))

theorem endsOtherwise_ret (s : State) : EndsOtherwise .ret s := by
  by_cases hsp : s.sp = spInit
  · exact endsOtherwise_of_underflow (execRet_underflow hsp)
  · exact endsOtherwise_of_completes (execRet_ok hsp) rfl

theorem endsOtherwise_iret (s : State) : EndsOtherwise .iret s := by
  by_cases h : ∀ k, k < 8 → s.sp + BitVec.ofNat 8 k ≠ spInit
  · obtain ⟨u, hu, hexec⟩ := execIret_ok h
    exact endsOtherwise_of_completes hexec hu.runStatus
  · push Not at h
    obtain ⟨k, hk, hlimit⟩ := h
    exact endsOtherwise_of_underflow (execIret_underflow hk hlimit)

theorem endsOtherwise_of_wellFormed {i : Instr} (s : State) (h : i.wellFormed = true) : EndsOtherwise i s := by
  cases i with
  | hlt => exact endsOtherwise_of_completes (execHlt_eq s) rfl
  | ret => exact endsOtherwise_ret s
  | iret => exact endsOtherwise_iret s
  | ldi a v =>
    obtain ⟨r, rfl⟩ := wellFormed_one rfl h
    exact endsOtherwise_of_completes (execLdi_regIndex s r v) rfl
  | prn a =>
    obtain ⟨r, rfl⟩ := wellFormed_one rfl h
    exact endsOtherwise_of_completes (execPrn_regIndex s r) rfl
  | push a =>
    obtain ⟨r, rfl⟩ := wellFormed_one rfl h
    exact endsOtherwise_push s r
  | pop a =>
    obtain ⟨r, rfl⟩ := wellFormed_one rfl h
    exact endsOtherwise_pop s r
  | jmp a =>
    obtain ⟨r, rfl⟩ := wellFormed_one rfl h
    exact endsOtherwise_of_completes (execJmp_regIndex s r) rfl
  | pra a =>
    obtain ⟨r, rfl⟩ := wellFormed_one rfl h
    exact endsOtherwise_pra s r
  | call a =>
    obtain ⟨r, rfl⟩ := wellFormed_one rfl h
    exact endsOtherwise_call s r
  | jeq a =>
    obtain ⟨r, rfl⟩ := wellFormed_one rfl h
    exact endsOtherwise_of_completes (exec_jeq s r) rfl
  | jne a =>
    obtain ⟨r, rfl⟩ := wellFormed_one rfl h
    exact endsOtherwise_of_completes (exec_jne s r) rfl
  | st a b =>
    obtain ⟨⟨r, rfl⟩, q, rfl⟩ := wellFormed_two rfl h
    exact endsOtherwise_st s r q
  | ld a b =>
    obtain ⟨⟨r, rfl⟩, q, rfl⟩ := wellFormed_two rfl h
    exact endsOtherwise_of_completes (execLd_regIndex s r q) rfl
  | not a =>
    obtain ⟨r, rfl⟩ := wellFormed_one rfl h
    exact endsOtherwise_of_alu (op := .not) (src := .unary) rfl rfl
  | mul a b => exact endsOtherwise_of_alu_two (op := .multiply) rfl rfl h
  | add a b => exact endsOtherwise_of_alu_two (op := .add) rfl rfl h
  | cmp a b => exact endsOtherwise_of_alu_two (op := .compare) rfl rfl h
  | and a b => exact endsOtherwise_of_alu_two (op := .and) rfl rfl h
  | or a b => exact endsOtherwise_of_alu_two (op := .or) rfl rfl h
  | xor a b => exact endsOtherwise_of_alu_two (op := .xor) rfl rfl h
  | shl a b => exact endsOtherwise_of_alu_two (op := .shiftLeft) rfl rfl h
  | shr a b => exact endsOtherwise_of_alu_two (op := .shiftRight) rfl rfl h
  | mod a b => exact endsOtherwise_of_alu_two (op := .modulo) rfl rfl h

/-- Settles O29: the checks of each instruction for the one direction, its ends on registers that exist for the
other. -/
theorem invalidRegisterExactly : Obligations.InvalidRegisterExactly :=
  ⟨fun _ _ _ hr => stopsWith_firstInvalid hr,
    fun _ s _ r hwf hrun ht => (endsOtherwise_of_wellFormed s hwf).not_invalid hrun ht r⟩

end Sys2Proof.Claims
end

section
/-! PROOFS. FL as an instruction sees it (spec/10_state.md R30): a relation between two states that differ only in FL,
kept by every operation and so by every instruction. -/

namespace Sys2Proof.Machine

/-- `t` is `s` but for FL, and on the bits in `K` the two FL agree. -/
def Alike (K : Nat → Prop) (s t : State) : Prop :=
  ∃ fl, t = { s with fl := fl } ∧ ∀ k, K k → fl.getLsbD k = s.fl.getLsbD k

/-- Two computations complete with related results, or raise the same fault. -/
inductive AlikeResult {α : Type} (R : α → α → Prop) : Except Fault α → Except Fault α → Prop where
  | ok {a b : α} (h : R a b) : AlikeResult R (.ok a) (.ok b)
  | error (f : Fault) : AlikeResult R (.error f) (.error f)

/-- A handler's results: states alike, the same control action. -/
def AlikeEnd (K : Nat → Prop) (e e' : State × ControlAction) : Prop := Alike K e.1 e'.1 ∧ e'.2 = e.2

/-- A pop's results: the same byte, states alike. -/
def AlikePop (K : Nat → Prop) (e e' : Byte × State) : Prop := e'.1 = e.1 ∧ Alike K e.2 e'.2

/-- Two steps answer next states alike. -/
def AlikeNext (K : Nat → Prop) (x y : Host.Outcome State Fault Refusal) : Prop :=
  ∃ u u', x = .next u ∧ y = .next u' ∧ Alike K u u'

section
variable {α β : Type}

theorem AlikeResult.bind {R : α → α → Prop} {Q : β → β → Prop} {x y : Except Fault α} {f g : α → Except Fault β}
    (h : AlikeResult R x y) (hf : ∀ a b, R a b → AlikeResult Q (f a) (g b)) : AlikeResult Q (x >>= f) (y >>= g) := by
  cases h with
  | ok h => exact hf _ _ h
  | error e => exact .error e

/-- One computation followed by two. -/
theorem AlikeResult.bind_same {Q : β → β → Prop} (x : Except Fault α) {f g : α → Except Fault β}
    (hf : ∀ a, AlikeResult Q (f a) (g a)) : AlikeResult Q (x >>= f) (x >>= g) := by
  cases x with
  | ok a => exact hf a
  | error e => exact .error e

end

variable {K : Nat → Prop}

section
variable {s t : State} (h : Alike K s t)
include h

/-! ### What does not look at FL -/

theorem Alike.pc : t.pc = s.pc := by
  obtain ⟨_, rfl, -⟩ := h
  rfl

theorem Alike.sp : t.sp = s.sp := by
  obtain ⟨_, rfl, -⟩ := h
  rfl

theorem Alike.byteAt (addr : Nat) : t.byteAt addr = s.byteAt addr := by
  obtain ⟨_, rfl, -⟩ := h
  rfl

theorem Alike.readReg (b : Byte) : readReg t b = readReg s b := by
  obtain ⟨_, rfl, -⟩ := h
  rfl

theorem Alike.readSource (src : AluSource) : readSource t src = readSource s src := by
  obtain ⟨_, rfl, -⟩ := h
  rfl

theorem Alike.effectiveAddress (b : Byte) : effectiveAddress t b = effectiveAddress s b := by
  obtain ⟨_, rfl, -⟩ := h
  rfl

theorem Alike.memRead (addr : Nat) : memRead t addr = memRead s addr := by
  obtain ⟨_, rfl, -⟩ := h
  rfl

/-! ### The named updates -/

theorem Alike.setReg (r : Fin 8) (v : Byte) : Alike K (s.setReg r v) (t.setReg r v) := by
  obtain ⟨fl, rfl, hfl⟩ := h
  exact ⟨fl, rfl, hfl⟩

theorem Alike.emit (e : OutEvent) : Alike K (emit s e) (emit t e) := by
  obtain ⟨fl, rfl, hfl⟩ := h
  exact ⟨fl, rfl, hfl⟩

theorem Alike.raise (f : Fault) : Alike K (raise s f) (raise t f) := by
  obtain ⟨fl, rfl, hfl⟩ := h
  exact ⟨fl, rfl, hfl⟩

theorem Alike.applyControl (c : ControlAction) : Alike K (applyControl s c) (applyControl t c) := by
  obtain ⟨fl, rfl, hfl⟩ := h
  cases c <;> exact ⟨fl, rfl, hfl⟩

/-- The compare ORs the same bit into both. -/
theorem Alike.compareFlags (va vb : Byte) :
    Alike K { s with fl := compareFlags s.fl va vb } { t with fl := compareFlags t.fl va vb } := by
  obtain ⟨fl, rfl, hfl⟩ := h
  refine ⟨_, rfl, fun k hk => ?_⟩
  simp only [getLsbD_compareFlags, hfl k hk]

/-- A byte put into FL is the same byte in both, and `ie` may be set in both. -/
theorem Alike.setFlags (fl : Byte) : Alike K { s with fl := fl } { t with fl := fl } := by
  obtain ⟨_, rfl, -⟩ := h
  exact ⟨fl, rfl, fun _ _ => rfl⟩

theorem Alike.enable : Alike K { s with ie := true } { t with ie := true } := by
  obtain ⟨fl, rfl, hfl⟩ := h
  exact ⟨fl, rfl, hfl⟩

theorem Alike.flEqual (h0 : K 0) : flEqual t.fl = flEqual s.fl := by
  obtain ⟨fl, rfl, hfl⟩ := h
  exact hfl 0 h0

/-! ### The checked accesses and the stack -/

theorem Alike.writeReg (b v : Byte) : AlikeResult (Alike K) (writeReg s b v) (writeReg t b v) :=
  .bind_same (checkReg b) fun r => .ok (h.setReg r v)

theorem Alike.memWrite (addr : Nat) (v : Byte) : AlikeResult (Alike K) (memWrite s addr v) (memWrite t addr v) := by
  obtain ⟨fl, rfl, hfl⟩ := h
  cases hw : writeForbidden s addr with
  | true =>
    rw [memWrite_forbidden v hw, memWrite_forbidden (s := { s with fl := fl }) v hw]
    exact .error _
  | false =>
    rw [memWrite_ok v hw, memWrite_ok (s := { s with fl := fl }) v hw]
    exact .ok ⟨fl, rfl, hfl⟩

theorem Alike.push (v : Byte) : AlikeResult (Alike K) (push s v) (push t v) := by
  simp only [Machine.push, h.sp]
  exact (h.setReg 7 _).memWrite _ v

theorem Alike.pushPc (target : Nat) : AlikeResult (Alike K) (pushPc s target) (pushPc t target) := by
  rcases Nat.lt_or_ge target memSize with ht | ht
  · rw [pushPc_eq_push ht, pushPc_eq_push ht]
    exact h.push _
  · rw [pushPc_outside s ht, pushPc_outside t ht]
    exact .error _

theorem Alike.pop : AlikeResult (AlikePop K) (pop s) (pop t) := by
  by_cases hsp : s.sp = spInit
  · rw [pop_underflow hsp, pop_underflow (h.sp.trans hsp)]
    exact .error _
  · rw [pop_ok hsp, pop_ok (h.sp ▸ hsp), h.sp]
    exact .ok ⟨h.byteAt _, h.setReg 7 _⟩

theorem Alike.popInto (r : Fin 8) : AlikeResult (Alike K) (popInto s r) (popInto t r) :=
  h.pop.bind fun e e' he => .ok (by rw [he.1]; exact he.2.setReg r e.1)

theorem Alike.popFlags : AlikeResult (Alike K) (popFlags s) (popFlags t) :=
  h.pop.bind fun e e' he => .ok (by rw [he.1]; exact he.2.setFlags e.1)

end

theorem Alike.popRegs {s t : State} (h : Alike K s t) (rs : List (Fin 8)) :
    AlikeResult (Alike K) (popRegs s rs) (popRegs t rs) := by
  induction rs generalizing s t with
  | nil => exact .ok h
  | cons r rs ih => exact (h.popInto r).bind fun _ _ hu => ih hu

/-! ### The handlers, in two states alike -/

section
variable {s t : State} (h : Alike K s t)
include h

theorem Alike.restoreFrame : AlikeResult (AlikePop K) (restoreFrame s) (restoreFrame t) :=
  (h.popRegs _).bind fun _ _ hregs => hregs.popFlags.bind fun _ _ hflags => hflags.pop.bind fun _ _ hpop =>
    .ok ⟨hpop.1, hpop.2.enable⟩

theorem Alike.aluApply (op : AluOp) (dest : Byte) (src : AluSource) :
    AlikeResult (Alike K) (aluApply op dest src s) (aluApply op dest src t) := by
  simp only [Machine.aluApply, h.readReg, h.readSource]
  refine .bind_same _ fun va => .bind_same _ fun vb => ?_
  cases op with
  | compare => exact .ok (h.compareFlags va vb)
  | modulo =>
    by_cases hzero : vb = 0
    · simp only [if_pos hzero, h.pc]
      exact .error _
    · simp only [if_neg hzero]
      exact h.writeReg dest _
  | _ => exact h.writeReg dest _

/-- The end of an instruction: states alike, whether it completes or is undone. -/
theorem Alike.complete {r r' : HandlerResult} (hr : AlikeResult (AlikeEnd K) r r') :
    AlikeNext K (complete s r) (complete t r') := by
  cases hr with
  | @ok e e' he =>
    obtain ⟨u, c⟩ := e
    obtain ⟨u', c'⟩ := e'
    obtain ⟨hstates, rfl⟩ : Alike K u u' ∧ c' = c := he
    exact ⟨_, _, rfl, rfl, hstates.applyControl c'⟩
  | error f => exact ⟨_, _, rfl, rfl, h.raise f⟩

/-- A computation on the state, then a control action: the shape of most handlers. -/
theorem Alike.complete_bind {x y : Except Fault State} (c : ControlAction) (hx : AlikeResult (Alike K) x y) :
    AlikeNext K (Machine.complete s (x >>= fun v => .ok (v, c))) (Machine.complete t (y >>= fun v => .ok (v, c))) :=
  h.complete (hx.bind fun _ _ hv => .ok ⟨hv, rfl⟩)

/-- A read of one register, then a change of the state and a control action that depend on the value. -/
theorem Alike.complete_read (a : Byte) {f g : Byte → State × ControlAction} (hfg : ∀ v, AlikeEnd K (f v) (g v)) :
    AlikeNext K (Machine.complete s (Machine.readReg s a >>= fun v => .ok (f v)))
      (Machine.complete t (Machine.readReg t a >>= fun v => .ok (g v))) := by
  rw [h.readReg]
  exact h.complete (.bind_same _ fun v => .ok (hfg v))

theorem Alike.execLd (a b : Byte) : AlikeNext K (execLd a b s) (execLd a b t) := by
  simp only [Machine.execLd, h.effectiveAddress, h.memRead]
  exact h.complete (.bind_same _ fun _ => .bind_same _ fun _ => .bind_same _ fun v =>
    (h.writeReg a v).bind fun _ _ hu => .ok ⟨hu, rfl⟩)

theorem Alike.execSt (a b : Byte) : AlikeNext K (execSt a b s) (execSt a b t) := by
  simp only [Machine.execSt, h.effectiveAddress, h.readReg]
  exact h.complete (.bind_same _ fun addr => .bind_same _ fun v => (h.memWrite addr v).bind fun _ _ hu => .ok ⟨hu, rfl⟩)

theorem Alike.execPush (a : Byte) : AlikeNext K (execPush a s) (execPush a t) := by
  simp only [Machine.execPush, h.readReg]
  exact h.complete (.bind_same _ fun v => (h.push v).bind fun _ _ hu => .ok ⟨hu, rfl⟩)

theorem Alike.execPop (a : Byte) : AlikeNext K (execPop a s) (execPop a t) :=
  h.complete (.bind_same _ fun _ => h.pop.bind fun (v, w) (v', w') he => by
    obtain ⟨rfl, hw⟩ : v' = v ∧ Alike K w w' := he
    exact (hw.writeReg a v').bind fun _ _ hu => .ok ⟨hu, rfl⟩)

theorem Alike.execCall (a : Byte) : AlikeNext K (execCall a s) (execCall a t) := by
  simp only [Machine.execCall, h.readReg, h.pc]
  exact h.complete (.bind_same _ fun _ => (h.pushPc _).bind fun _ _ hu => .ok ⟨hu, rfl⟩)

/-- RET and IRET go to the byte that their pops end with. -/
theorem Alike.complete_return {x y : Except Fault (Byte × State)} (hx : AlikeResult (AlikePop K) x y) :
    AlikeNext K (Machine.complete s (x >>= fun e => .ok (e.2, .jumpTo e.1)))
      (Machine.complete t (y >>= fun e => .ok (e.2, .jumpTo e.1))) :=
  h.complete (hx.bind fun _ _ he => .ok ⟨he.2, congrArg ControlAction.jumpTo he.1⟩)

theorem Alike.execJmp (a : Byte) : AlikeNext K (execJmp a s) (execJmp a t) :=
  h.complete_read a fun _ => ⟨h, rfl⟩

theorem Alike.execJeq (h0 : K 0) (a : Byte) : AlikeNext K (execJeq a s) (execJeq a t) :=
  h.complete_read a fun _ => ⟨h, by rw [h.flEqual h0]⟩

theorem Alike.execJne (h0 : K 0) (a : Byte) : AlikeNext K (execJne a s) (execJne a t) :=
  h.complete_read a fun _ => ⟨h, by rw [h.flEqual h0]⟩

theorem Alike.execPrn (a : Byte) : AlikeNext K (execPrn a s) (execPrn a t) :=
  h.complete_read a fun _ => ⟨h.emit _, rfl⟩

theorem Alike.execPra (a : Byte) : AlikeNext K (execPra a s) (execPra a t) := by
  refine h.complete_read a fun v => ⟨?_, rfl⟩
  by_cases hv : v = 0
  · simp only [if_pos hv]
    exact h
  · simp only [if_neg hv]
    exact h.emit _

/-- Every instruction takes states alike on bit 0 of FL, and on whatever other bits, to states alike on the same
bits. -/
theorem Alike.exec (h0 : K 0) (i : Instr) : AlikeNext K (exec i s) (exec i t) := by
  cases i with
  | ldi a v => exact h.complete_bind _ (h.writeReg a v)
  | prn a => exact h.execPrn a
  | hlt => exact h.complete (.ok (a := (s, .halt)) (b := (t, .halt)) ⟨h, rfl⟩)
  | push a => exact h.execPush a
  | pop a => exact h.execPop a
  | jmp a => exact h.execJmp a
  | st a b => exact h.execSt a b
  | pra a => exact h.execPra a
  | ld a b => exact h.execLd a b
  | call a => exact h.execCall a
  | ret => exact h.complete_return h.pop
  | iret => exact h.complete_return h.restoreFrame
  | jeq a => exact h.execJeq h0 a
  | jne a => exact h.execJne h0 a
  | mul a b => exact h.complete_bind _ (h.aluApply .multiply a (.register b))
  | add a b => exact h.complete_bind _ (h.aluApply .add a (.register b))
  | cmp a b => exact h.complete_bind _ (h.aluApply .compare a (.register b))
  | and a b => exact h.complete_bind _ (h.aluApply .and a (.register b))
  | or a b => exact h.complete_bind _ (h.aluApply .or a (.register b))
  | xor a b => exact h.complete_bind _ (h.aluApply .xor a (.register b))
  | not a => exact h.complete_bind _ (h.aluApply .not a .unary)
  | shl a b => exact h.complete_bind _ (h.aluApply .shiftLeft a (.register b))
  | shr a b => exact h.complete_bind _ (h.aluApply .shiftRight a (.register b))
  | mod a b => exact h.complete_bind _ (h.aluApply .modulo a (.register b))

end

end Sys2Proof.Machine

namespace Sys2Proof.Claims

open Sys2Proof.Machine

/-- Settles O25: `Alike` on the set of bits on which the two FL agree, bit 0 among them. -/
theorem onlyFlagBitZeroIsRead : Obligations.OnlyFlagBitZeroIsRead := by
  intro i s fl h0
  have halike : Alike (fun k => fl.getLsbD k = s.fl.getLsbD k) s { s with fl := fl } := ⟨fl, rfl, fun _ hk => hk⟩
  obtain ⟨t, _, ht, hu, fl', rfl, hbits⟩ := halike.exec h0 i
  exact ⟨t, _, ht, hu, rfl, hbits⟩

end Sys2Proof.Claims
end
